-- ==== Sys2Proof/Word.lean ====
section
/-! DEFINITION. The word types of B58CORE: buffer elements are 8 bits (20_memory.md R61), the operands of ULT64 are
64 bits (10_state.md R26), the window registers range over 0 .. 2^32-1 (10_state.md R25). -/

namespace Sys2Proof

/-- One element of a buffer, a character code, or a command word: 8 bits (00_scope.md R7 `BYTEW`). -/
abbrev Byte := BitVec 8

/-- The range of the window registers `OFF` and `LEN` (10_state.md R25). -/
abbrev Word32 := BitVec 32

/-- The words that `ULT64` compares (00_scope.md R7 `WORDW`). -/
abbrev Word64 := BitVec 64

end Sys2Proof
end

