-- ==== Sys2Proof/Config.lean ====
section
/-! DEFINITION. The constants the document fixes (00_scope.md R7), the shapes of the configuration, and the parameters
that stay open: the two digests (R9) and the capacity MAXLEN (R10) are uninterpreted constants, so that whatever is
proved holds for every value of them. The parameters that have a value for this hardware are in Machine/Params.lean. -/

namespace Sys2Proof.Config

/-- `BASE`, the radix of the text side (00_scope.md R7). -/
abbrev base : Nat := 58

/-- `TABLEN`, the entries of the reverse lookup table (00_scope.md R7). -/
abbrev tableLen : Nat := 256

/-- `CSLEN`, the bytes of a checksum (00_scope.md R7). -/
abbrev checksumLen : Nat := 4

/-- `D256LEN`, the bytes of the 256-bit digest (00_scope.md R7). -/
abbrev digest256Len : Nat := 32

/-- `D160LEN`, the bytes of the 160-bit digest (00_scope.md R7). -/
abbrev digest160Len : Nat := 20

end Sys2Proof.Config

namespace Sys2Proof

/-- The two read-only tables (10_state.md R21, R22). An entry of `indexes` is an optional index, as R22 allows:
`none` is the sentinel -1 (log 5). -/
structure Tables where
  alphabet : Vector Byte Config.base
  indexes  : Vector (Option (Fin Config.base)) Config.tableLen
  deriving DecidableEq, Repr

/-- The two attached digest units as functions of the message (00_scope.md R9, 60_exceptions.md R230): total, and of
fixed output length by type. -/
structure Digests where
  h256 : List Byte → Vector Byte Config.digest256Len
  h160 : List Byte → Vector Byte Config.digest160Len

/-- `HEXCASE`, the letter case of hexadecimal output (00_scope.md R11). -/
inductive HexCase where
  | lowercase
  | uppercase
  deriving DecidableEq, Repr

end Sys2Proof

namespace Sys2Proof.Config

/-- Parameter `H256` (00_scope.md R9). FREE VALUE (log 6): nothing is known of it but its type. -/
opaque h256 : List Byte → Vector Byte digest256Len

/-- Parameter `H160` (00_scope.md R9). FREE VALUE (log 6): nothing is known of it but its type. -/
opaque h160 : List Byte → Vector Byte digest160Len

/-- The digest units of this block (00_scope.md R9). -/
def digests : Digests := ⟨h256, h160⟩

/-- The least `MAXLEN` whose result buffer of `2*MAXLEN + 8` elements holds a 256-bit digest, which `DHASH` gives in every
configuration (41_hash.md R126): 12. A smaller one is no configuration, since "no command can exceed" `OCAP`
(00_scope.md R10; DEDUCED, log 8). -/
abbrev leastMaxLen : Nat := (digest256Len - 8) / 2

/-- By how much `MAXLEN` exceeds the least it can be; `none` is an unbounded `MAXLEN`. FREE VALUE (log 7). -/
opaque maxLenMargin : Option Nat

/-- Parameter `MAXLEN`, left OPEN (00_scope.md R10): `none` is "unbounded". -/
def maxLen : Option Nat := maxLenMargin.map (fun k => leastMaxLen + k)

/-- A length is within a capacity; an unbounded capacity admits every length (00_scope.md R10). -/
def fits (cap : Option Nat) (n : Nat) : Bool :=
  match cap with
  | none => true
  | some m => decide (n ≤ m)

/-- `OCAP = 2*MAXLEN + 8`, the capacity 00_scope.md R10 gives the result buffer when `MAXLEN` is finite (log 8). -/
def ocap (cap : Option Nat) : Option Nat := cap.map (fun m => 2 * m + 8)

/-- The result buffer holds a whole 256-bit digest: for an unbounded `MAXLEN`, or one of `leastMaxLen` or more. These are
the capacities that a configuration can have (00_scope.md R10 with 41_hash.md R126; DEDUCED, log 8). -/
def holdsDigest (cap : Option Nat) : Bool := fits (ocap cap) digest256Len

end Sys2Proof.Config
end

