-- ==== Sys2Proof/Syntax.lean ====
section
/-! DEFINITION. The eleven commands (30_encoding.md R92), the register numbers' names (10_state.md R38), the host
operations (20_memory.md R73, 70_reset_and_hazards.md R266) and the lines of a host script (30_encoding.md R98, R99). -/

namespace Sys2Proof

/-- The eleven commands, one constructor per row of spec/opcode_table.json, in its order. No command has an operand in
its word (30_encoding.md R93). -/
inductive Instr where
  | b58enc
  | b58dec
  | b58cenc
  | b58cdec
  | dhash
  | idhash
  | hexenc
  | hexdec
  | rev
  | ult64
  | dhashw
  deriving DecidableEq, Repr

/-- The scalar registers of the numbered register port (10_state.md R38): the numbers 0 to 9 by name, and 10 to 15 as
`reserved 0` to `reserved 5`. -/
inductive Reg where
  | cmd
  | status
  | ilen
  | olen
  | off
  | len
  | opa
  | opb
  | flag
  | errpos
  | reserved (k : Fin 6)
  deriving DecidableEq, Repr

/-- The two element buffers (20_memory.md R60). -/
inductive Buffer where
  | ibuf
  | obuf
  deriving DecidableEq, Repr

/-- What the outside world can do to the block: the host operations of 20_memory.md R73 and the reset event of
70_reset_and_hazards.md R260. Each is atomic. -/
inductive HostOp where
  /-- `HostLoad(s)`. -/
  | load (s : List Byte)
  /-- `HostLoad(lead ++ t)`, where `t` is what the host last read from a buffer: the second half of the script's `LDO`
  (30_encoding.md R99). -/
  | loadReply (lead : List Byte)
  /-- `HostReadI()` and `HostReadO()`. -/
  | readBuffer (b : Buffer)
  /-- The read of one element, `IBUF[i]` or `OBUF[i]` (20_memory.md R72, 60_exceptions.md R222; log 14). -/
  | readElement (b : Buffer) (i : Nat)
  /-- `HostWrite(r, v)`. -/
  | writeReg (r : Reg) (v : Nat)
  /-- `HostRead(r)`. -/
  | readReg (r : Reg)
  /-- The reset event. -/
  | reset
  deriving DecidableEq, Repr

/-- What an `EXPECT` line of a script names (30_encoding.md R98). -/
inductive Check where
  | reg (r : Reg) (v : Nat)
  | buffer (b : Buffer) (s : List Byte)
  deriving DecidableEq, Repr

/-- The lines of a host script and its pseudo-operations (30_encoding.md R98, R99). A text operand is its list of
character codes. `ldo []` is `LDO`. -/
inductive ScriptLine where
  | ldi (s : List Byte)
  | setw (off len : Nat)
  | seta (v : Nat)
  | setb (v : Nat)
  | cmd (i : Instr)
  | cmdWord (w : Byte)
  | expect (c : Check)
  | ldo (lead : List Byte)
  | call (i : Instr) (s : List Byte)
  deriving DecidableEq, Repr

end Sys2Proof
end

