-- ==== Sys2Proof/WellFormed.lean ====
section
/-! DEFINITION. Well-formed command words (30_encoding.md R90, R91) and well-formed host operations (the conditions of
20_memory.md R73). A term of `Instr` has no operand, so every one of them is well formed. -/

namespace Sys2Proof

/-- The field `RSV = w[7:4]` of a command word (30_encoding.md R90). -/
def rsvField (w : Byte) : BitVec 4 := w.extractLsb' 4 4

/-- The field `OP = w[3:0]` of a command word (30_encoding.md R90). -/
def opField (w : Byte) : BitVec 4 := w.extractLsb' 0 4

/-- A word selects an operation: `RSV` is zero and `OP` is one of the eleven values (30_encoding.md R91). -/
def wellFormedWord (w : Byte) : Bool :=
  decide (rsvField w = 0) && (decide (1 ≤ (opField w).toNat) && decide ((opField w).toNat ≤ 11))

/-- `v` is in the range of a register the host may write (20_memory.md R73, 10_state.md R20); a register the host's
write of which is ignored takes any value (10_state.md R38); a write of `ILEN` alone is no operation (R38). -/
def regAccepts (r : Reg) (v : Nat) : Bool :=
  match r with
  | .cmd => decide (v < 2 ^ 8)
  | .off => decide (v < 2 ^ 32)
  | .len => decide (v < 2 ^ 32)
  | .opa => decide (v < 2 ^ 64)
  | .opb => decide (v < 2 ^ 64)
  | .ilen => false
  | .status => true
  | .olen => true
  | .flag => true
  | .errpos => true
  | .reserved _ => true

/-- The condition of a host operation that does not depend on the state (20_memory.md R73), for a capacity `cap`. -/
def wellFormedOp (cap : Option Nat) (op : HostOp) : Bool :=
  match op with
  | .load s => Config.fits cap s.length
  | .writeReg r v => regAccepts r v
  | .loadReply _ => true
  | .readBuffer _ => true
  | .readElement _ _ => true
  | .readReg _ => true
  | .reset => true

end Sys2Proof
end

