-- ==== Sys2Proof/Decode.lean ====
section
/-! DEFINITION. The decoder of command words (30_encoding.md R90, R91, R94), total on all 256 of them and refusing by
name; the encoder (R92); the numbers of the register port (10_state.md R38). -/

namespace Sys2Proof

/-- Why a command word is reserved (30_encoding.md R94). -/
inductive DecodeError where
  /-- `w[7:4]` is not zero (240 words). -/
  | reservedField
  /-- `w[7:4]` is zero and `w[3:0]` is `0x0`, `0xC`, `0xD`, `0xE` or `0xF` (5 words). -/
  | reservedOperation
  deriving DecidableEq, Repr

/-- The operation a value of `OP` selects (30_encoding.md R92). -/
def decodeOp (op : BitVec 4) : Option Instr :=
  match op.toNat with
  | 0x1 => some .b58enc
  | 0x2 => some .b58dec
  | 0x3 => some .b58cenc
  | 0x4 => some .b58cdec
  | 0x5 => some .dhash
  | 0x6 => some .idhash
  | 0x7 => some .hexenc
  | 0x8 => some .hexdec
  | 0x9 => some .rev
  | 0xA => some .ult64
  | 0xB => some .dhashw
  | _ => none

/-- The command word's operation, or why it has none (30_encoding.md R91, R94). -/
def decode (w : Byte) : Except DecodeError Instr :=
  if rsvField w = 0 then
    match decodeOp (opField w) with
    | some i => .ok i
    | none => .error .reservedOperation
  else .error .reservedField

/-- The command word of an operation (30_encoding.md R92; the `match` of its row in opcode_table.json). -/
def encode (i : Instr) : Byte :=
  match i with
  | .b58enc => 0x01
  | .b58dec => 0x02
  | .b58cenc => 0x03
  | .b58cdec => 0x04
  | .dhash => 0x05
  | .idhash => 0x06
  | .hexenc => 0x07
  | .hexdec => 0x08
  | .rev => 0x09
  | .ult64 => 0x0A
  | .dhashw => 0x0B

/-- The command word that a table row's bits give: a command is one word of eight bits (30_encoding.md R96), so the
word is the low eight of the `nbits` bits given (log 19). -/
def tableWord (nbits w : Nat) : Byte := BitVec.ofNat 8 (w % 2 ^ nbits)

/-- The instruction the decoder reads from a table row's bits. -/
def decodeTableWord (nbits w : Nat) : Option Instr :=
  match decode (tableWord nbits w) with
  | .ok i => some i
  | .error _ => none

/-- The register a port number names (10_state.md R38). -/
def regOfNumber (n : BitVec 4) : Reg :=
  match n.toNat with
  | 0 => .cmd
  | 1 => .status
  | 2 => .ilen
  | 3 => .olen
  | 4 => .off
  | 5 => .len
  | 6 => .opa
  | 7 => .opb
  | 8 => .flag
  | 9 => .errpos
  | k => .reserved (Fin.ofNat 6 (k - 10))

/-- The port number of a register (10_state.md R38). -/
def numberOfReg (r : Reg) : BitVec 4 :=
  match r with
  | .cmd => 0
  | .status => 1
  | .ilen => 2
  | .olen => 3
  | .off => 4
  | .len => 5
  | .opa => 6
  | .opb => 7
  | .flag => 8
  | .errpos => 9
  | .reserved k => BitVec.ofNat 4 (10 + k.val)

end Sys2Proof
end

