-- ==== Sys2Proof/Machine/Params.lean ====
section
/-! DEFINITION. The parameters that have a value for this hardware (00_scope.md R12), and the table derived from the
alphabet (10_state.md R22). -/

namespace Sys2Proof.Machine

/-- `ALPHABET` of this hardware (00_scope.md R8): the digits 1 to 9, then A to Z without I and O, then a to z without l.
PRESUMED (log 10): the order is the spec's general knowledge. The codes are ASCII (20_memory.md R62, log 12). -/
def alphabetValue : Vector Byte Config.base := #v[
  -- 1 to 9
  0x31#8, 0x32#8, 0x33#8, 0x34#8, 0x35#8, 0x36#8, 0x37#8, 0x38#8, 0x39#8,
  -- A to H
  0x41#8, 0x42#8, 0x43#8, 0x44#8, 0x45#8, 0x46#8, 0x47#8, 0x48#8,
  -- J to N
  0x4A#8, 0x4B#8, 0x4C#8, 0x4D#8, 0x4E#8,
  -- P to Z
  0x50#8, 0x51#8, 0x52#8, 0x53#8, 0x54#8, 0x55#8, 0x56#8, 0x57#8, 0x58#8, 0x59#8, 0x5A#8,
  -- a to k
  0x61#8, 0x62#8, 0x63#8, 0x64#8, 0x65#8, 0x66#8, 0x67#8, 0x68#8, 0x69#8, 0x6A#8, 0x6B#8,
  -- m to z
  0x6D#8, 0x6E#8, 0x6F#8, 0x70#8, 0x71#8, 0x72#8, 0x73#8, 0x74#8, 0x75#8, 0x76#8, 0x77#8, 0x78#8, 0x79#8, 0x7A#8]

/-- `HEXCASE` of this hardware (00_scope.md R11). -/
def hexCaseValue : HexCase := .lowercase

/-- `HEXDEC_BOTH` of this hardware (00_scope.md R11). -/
def hexdecBothValue : Bool := true

/-- `DIGESTS_PRESENT` of this hardware (00_scope.md R9, R12). -/
def digestsPresentValue : Bool := true

/-- The index of a character code in an alphabet, or none (10_state.md R22). -/
def indexOf (alphabet : Vector Byte Config.base) (c : Byte) : Option (Fin Config.base) :=
  (List.finRange Config.base).find? (fun i => alphabet.get i == c)

/-- `INDEXES` as derived from an `ALPHABET` (10_state.md R22, 70_reset_and_hazards.md R261). -/
def buildIndexes (alphabet : Vector Byte Config.base) : Vector (Option (Fin Config.base)) Config.tableLen :=
  ⟨⟨(List.finRange Config.tableLen).map (fun c => indexOf alphabet (BitVec.ofNat 8 c.val))⟩, by simp⟩

/-- Both tables, as reset leaves them (70_reset_and_hazards.md R261). -/
def tablesValue : Tables := ⟨alphabetValue, buildIndexes alphabetValue⟩

end Sys2Proof.Machine
end

