-- ==== Sys2Proof/Machine/State.lean ====
section
/-! DEFINITION. The architectural state (10_state.md R20), the reasons a step can stop, and the state after reset
(10_state.md R37). -/

namespace Sys2Proof.Machine

/-- `PHASE` (10_state.md R32). -/
inductive Phase where
  | ready
  | fatal
  deriving DecidableEq, Repr

/-- What a host read returns (20_memory.md R73): the value of a scalar register or of one element, or the elements of a
buffer. -/
inductive Reply where
  | value (n : Nat)
  | elements (s : List Byte)
  deriving DecidableEq, Repr

/-- The complete architectural state (10_state.md R20), and the host's side of the interface in the last two fields.
`ILEN`, `OLEN` are the lengths of the two buffers, and `STATUS` is composed from `phase` and `code` (log 9). -/
structure State where
  /-- `ALPHABET` and `INDEXES`, read only (10_state.md R21 to R23; log 5). -/
  tables  : Tables
  /-- `PHASE` (10_state.md R32). -/
  phase   : Phase
  /-- `IBUF`, whose length is `ILEN` (10_state.md R24). -/
  ibuf    : List Byte
  /-- `OFF` (10_state.md R25). -/
  off     : Word32
  /-- `LEN` (10_state.md R25). -/
  len     : Word32
  /-- `OPA` (10_state.md R26). -/
  opa     : Word64
  /-- `OPB` (10_state.md R26). -/
  opb     : Word64
  /-- `CMD` (10_state.md R29). -/
  cmd     : Byte
  /-- `STATUS.CODE` (10_state.md R30). -/
  code    : BitVec 4
  /-- `ERRPOS` (10_state.md R31). -/
  errpos  : Nat
  /-- `OBUF`, whose length is `OLEN` (10_state.md R27). -/
  obuf    : List Byte
  /-- `FLAG` (10_state.md R28). -/
  flag    : Bool
  /-- The model's own: the host operations not yet performed, in the order the host issues them (20_memory.md R76;
  DESIGN CHOICE, log 1). -/
  pending : List HostOp
  /-- The model's own: what the host's last read returned, if it has read (20_memory.md R73; DESIGN CHOICE, log 2). -/
  reply   : Option Reply
  deriving DecidableEq, Repr

/-- The faults of a step. No command and no host operation raises one (60_exceptions.md R233). -/
inductive Fault where
  /-- Raised by `step` when no host operation is pending: the run has ended and the core has no step of its own
  (70_reset_and_hazards.md R268). Safe (log 3). -/
  | runEnded
  deriving DecidableEq, Repr

/-- The refusals: host operations the spec gives no meaning. No command ends in one. -/
inductive Refusal where
  /-- The arm of an instruction that has no meaning yet; no arm is left so. Safe. -/
  | notModelled (mnemonic : String)
  /-- Raised by `HostLoad` of more than `MAXLEN` elements (20_memory.md R73; 93_implementation_defined.md U6).
  Safe (log 7). -/
  | operandTooLong
  /-- Raised by a host read of an element at or beyond its buffer's length (20_memory.md R72;
  93_implementation_defined.md U7). Safe (log 14). -/
  | readBeyondLength
  /-- Raised by a host write of a value outside the register's range (20_memory.md R73). Safe (log 15). -/
  | valueOutOfRange
  /-- Raised by a host write of `ILEN` alone, "not a defined operation" (10_state.md R38). Safe (log 15). -/
  | ilenWrittenAlone
  /-- Raised by the script's load of the last reply when the host's last read returned no sequence
  (30_encoding.md R99). Safe (log 16). -/
  | noSequenceRead
  deriving DecidableEq, Repr

/-- The lifecycle state in which reset leaves the block (70_reset_and_hazards.md R262). -/
def phaseAtReset (digestsPresent : Bool) : Phase := if digestsPresent then .ready else .fatal

/-- The block when reset ends, for either value of `DIGESTS_PRESENT` (10_state.md R37). `pending` and `reply` are the
host's and are handed through (log 21). -/
def State.afterReset (digestsPresent : Bool) (pending : List HostOp) (reply : Option Reply) : State where
  tables := tablesValue
  phase := phaseAtReset digestsPresent
  ibuf := []
  off := 0
  len := 0
  opa := 0
  opb := 0
  cmd := 0x00
  code := 0
  errpos := 0
  obuf := []
  flag := false
  pending := pending
  reply := reply

/-- The machine right after reset (10_state.md R37), with nothing asked of it yet. -/
def State.reset : State := State.afterReset digestsPresentValue [] none

end Sys2Proof.Machine
end

