-- ==== Sys2Proof/Machine/Flags.lean ====
section
/-! DEFINITION. The outcome codes and their classes (60_exceptions.md R220, R221, R222), the composed STATUS register
(10_state.md R30), and the comparison that sets FLAG (44_byteops.md R193). -/

namespace Sys2Proof.Machine

/-- The seven error outcomes of a command (60_exceptions.md R221). -/
inductive ErrorKind where
  | b58Char
  | csShort
  | csMismatch
  | hexLen
  | hexDigit
  | window
  | illegal
  deriving DecidableEq, Repr

/-- The classes of error outcomes (60_exceptions.md R220): the document's ValidationError, and the spec's command
errors. The Configuration/Fatal class is no outcome of a command; it is `Phase.fatal`. -/
inductive ErrorClass where
  | validationError
  | commandError
  deriving DecidableEq, Repr

/-- The value of `STATUS.CODE` for an error (60_exceptions.md R221). -/
def errorCode (e : ErrorKind) : BitVec 4 :=
  match e with
  | .b58Char => 1
  | .csShort => 2
  | .csMismatch => 3
  | .hexLen => 4
  | .hexDigit => 5
  | .window => 6
  | .illegal => 7

/-- The class of an error (60_exceptions.md R220, R221). -/
def errorClass (e : ErrorKind) : ErrorClass :=
  match e with
  | .b58Char => .validationError
  | .csShort => .validationError
  | .csMismatch => .validationError
  | .hexLen => .validationError
  | .hexDigit => .validationError
  | .window => .commandError
  | .illegal => .commandError

/-- The document's message strings, which exist for the codes 1, 2 and 3 only (60_exceptions.md R222). The block itself
records none of them. -/
def errorMessage (e : ErrorKind) : Option String :=
  match e with
  | .b58Char => some "invalid character"
  | .csShort => some "too short for checksum"
  | .csMismatch => some "checksum mismatch"
  | .hexLen => none
  | .hexDigit => none
  | .window => none
  | .illegal => none

/-- `STATUS` (10_state.md R30): bit 7 is `FATAL`, bits 6:4 are zero, bits 3:0 are `CODE`. -/
def statusWord (phase : Phase) (code : BitVec 4) : Byte :=
  (match phase with
    | .ready => 0#1
    | .fatal => 1#1) ++ 0#3 ++ code

/-- `ILEN` (10_state.md R24). -/
def State.ilen (s : State) : Nat := s.ibuf.length

/-- `OLEN` (10_state.md R27). -/
def State.olen (s : State) : Nat := s.obuf.length

/-- `STATUS` as read (10_state.md R30). -/
def State.status (s : State) : Byte := statusWord s.phase s.code

/-- `a` is below `b` as unsigned words, by the document's algorithm on the words read as two's complement: the signed
comparison, inverted when the signs differ (44_byteops.md R193). -/
def lessUnsigned (a b : Word64) : Bool :=
  (decide (a.toInt < b.toInt)).xor ((decide (a.toInt < 0)).xor (decide (b.toInt < 0)))

end Sys2Proof.Machine
end

