-- ==== Sys2Proof/Machine/Ops.lean ====
section
/-! DEFINITION. The named operations over buffers and registers: the core's access to a buffer (20_memory.md R72), the
two endings of a command, of which `State.raise` is the one error entry of the block (60_exceptions.md R224), and the
step of the core around an operation (30_encoding.md R100). There is no return from an error (60_exceptions.md R226). -/

namespace Sys2Proof.Machine

/-- `MemRead(space, i, n)`: the elements `space[i..i+n)` (20_memory.md R72). It is used with `i + n <= |space|` only. -/
def memRead (space : List Byte) (i n : Nat) : List Byte := (space.drop i).take n

/-- `MemWrite(space, i, n, v)` with `n = |v|`: the elements from `i` on replaced by `v` (20_memory.md R72). It is used
with `i + |v| <= |space|` only, and then keeps the length. -/
def memWrite (space : List Byte) (i : Nat) (v : List Byte) : List Byte :=
  space.take i ++ v ++ space.drop (i + v.length)

/-- `CMD <- w` (30_encoding.md R100). -/
def State.setCmd (s : State) (w : Byte) : State := { s with cmd := w }

/-- `IBUF <- v`, `ILEN <- |v|` (20_memory.md R73, R75). -/
def State.setIbuf (s : State) (v : List Byte) : State := { s with ibuf := v }

/-- The host operations still to come. -/
def State.setPending (s : State) (ops : List HostOp) : State := { s with pending := ops }

/-- What a read operation returns to the host. -/
def State.setReply (s : State) (r : Reply) : State := { s with reply := some r }

/-- `complete(out, flag)` (30_encoding.md R100). -/
def State.complete (s : State) (out : List Byte) (flag : Bool) : State :=
  { s with code := 0, errpos := 0, obuf := out, flag := flag }

/-- `raise E(pos)`, the error entry (60_exceptions.md R224): the code and the position are recorded, every result is
emptied, and nothing else changes. -/
def State.raise (s : State) (e : ErrorKind) (pos : Nat) : State :=
  { s with code := errorCode e, errpos := pos, obuf := [], flag := false }

/-- How an operation ends (30_encoding.md R100): in exactly one of `complete(out, flag)` and `raise E(pos)`. -/
inductive Ending where
  | complete (out : List Byte) (flag : Bool)
  | raise (e : ErrorKind) (pos : Nat)
  deriving DecidableEq, Repr

/-- The registers that an ending writes (30_encoding.md R100). -/
def State.settle (s : State) (e : Ending) : State :=
  match e with
  | .complete out flag => s.complete out flag
  | .raise k pos => s.raise k pos

/-- The step of the core on an accepted or discarded write of the command word `w` (30_encoding.md R100). `operand`
is what the operation leaves in `IBUF`, `ending` how it ends. In `FATAL` the write is discarded: nothing changes
(60_exceptions.md R228; log 4). -/
def runOperation (w : Byte) (operand : State → List Byte) (ending : State → Ending) (s : State) :
    Host.Outcome State Fault Refusal :=
  match s.phase with
  | .fatal => .next s
  | .ready => .next (((s.setCmd w).setIbuf (operand s)).settle (ending s))

/-- `IBUF` as an operation leaves it that does not write it, which is every operation but `REV` (20_memory.md R75). -/
def keepIbuf (s : State) : List Byte := s.ibuf

end Sys2Proof.Machine
end

