-- ==== Sys2Proof/Machine/Operands.lean ====
section
/-! DEFINITION. The operand forms (30_encoding.md R93, 20_memory.md R74) and the helpers on sequences and numbers that
several commands share (00_scope.md R15, 42_base58.md R140, R144, 20_memory.md R63, R64). -/

namespace Sys2Proof.Machine

/-- The whole operand `IBUF[0..ILEN)` (20_memory.md R74). -/
def State.wholeOperand (s : State) : List Byte := memRead s.ibuf 0 s.ilen

/-- A window lies inside an operand of `ilen` elements (41_hash.md R124); the sum is of natural numbers and never wraps
(00_scope.md R10). -/
def windowInside (ilen off len : Nat) : Bool := decide (off + len ≤ ilen)

/-- `be(s)`, the number a byte sequence denotes, most significant byte first (00_scope.md R15). -/
def be (s : List Byte) : Nat := s.foldl (fun n b => 256 * n + b.toNat) 0

/-- The digits of `n` to the base `base`, least significant first and without a leading zero digit; `fuel` bounds their
number. The test of `n` comes before the division (90_conflicts.md C5). -/
def digitsUpTo (base : Nat) [NeZero base] : (fuel n : Nat) → List (Fin base)
  | 0, _ => []
  | fuel + 1, n => if n = 0 then [] else Fin.ofNat base n :: digitsUpTo base fuel (n / base)

/-- The digits of `n`, most significant first and without a leading zero digit; 0 has none. A number has no more digits
than its own value, so `n` is fuel enough. -/
def digits (base : Nat) [NeZero base] (n : Nat) : List (Fin base) := (digitsUpTo base n n).reverse

/-- `digits58(n)` (42_base58.md R140). -/
def digits58 (n : Nat) : List (Fin Config.base) := digits Config.base n

/-- `umin(n)`, the shortest byte sequence that denotes `n` (00_scope.md R15). -/
def umin (n : Nat) : List Byte := (digits 256 n).map (fun d => BitVec.ofNat 8 d.val)

/-- How many leading elements of `s` equal `c` (00_scope.md R15). -/
def leading (c : Byte) (s : List Byte) : Nat := (s.takeWhile (fun x => x == c)).length

/-- `lzb(s)`, the number of leading zero bytes (00_scope.md R15). -/
def lzb (s : List Byte) : Nat := leading 0 s

/-- `ZSYM = ALPHABET[0]`, the zero-symbol (00_scope.md R8). -/
def zsym (alphabet : Vector Byte Config.base) : Byte := alphabet.get 0

/-- `lzc(s)`, the number of leading zero-symbols (00_scope.md R15). -/
def lzc (alphabet : Vector Byte Config.base) (s : List Byte) : Nat := leading (zsym alphabet) s

/-- `zeros(k)` (00_scope.md R13). -/
def zeros (k : Nat) : List Byte := List.replicate k 0

/-- `first4(d) = d[0..4)` (00_scope.md R15). -/
def first4 (d : List Byte) : List Byte := memRead d 0 Config.checksumLen

/-- `INDEXES[c]`, the character code taken as an unsigned index (20_memory.md R72); `none` is -1. -/
def lookup (t : Tables) (c : Byte) : Option (Fin Config.base) :=
  t.indexes.get ⟨c.toNat, c.isLt⟩

end Sys2Proof.Machine
end

