-- ==== Sys2Proof/Machine/ByteOps.lean ====
section
/-! DEFINITION. The byte utilities (44_byteops.md): the commands REV, HEXENC, HEXDEC, ULT64. -/

namespace Sys2Proof.Machine

/-- One round of the loop of REV: byte `i` and byte `|s|-1-i` change places (44_byteops.md R190). -/
def swapEnds (s : List Byte) (i : Nat) : List Byte :=
  memWrite (memWrite s i (memRead s (s.length - 1 - i) 1)) (s.length - 1 - i) (memRead s i 1)

/-- The loop of REV, for `i` from 0 to `|s| div 2 - 1` (44_byteops.md R190; 90_conflicts.md C7). -/
def reverseInPlace (s : List Byte) : List Byte := (List.range (s.length / 2)).foldl swapEnds s

/-- How REV ends: the result is a copy of the reversed operand (44_byteops.md R190). -/
def endingRev (s : List Byte) : Ending := .complete (reverseInPlace s) false

/-- `HEXDIGITS` (44_byteops.md R191): the ASCII codes of the sixteen digits (20_memory.md R62, log 12). -/
def hexDigits (c : HexCase) : Vector Byte 16 :=
  match c with
  | .lowercase => #v[
      0x30#8, 0x31#8, 0x32#8, 0x33#8, 0x34#8, 0x35#8, 0x36#8, 0x37#8, 0x38#8, 0x39#8,
      0x61#8, 0x62#8, 0x63#8, 0x64#8, 0x65#8, 0x66#8]
  | .uppercase => #v[
      0x30#8, 0x31#8, 0x32#8, 0x33#8, 0x34#8, 0x35#8, 0x36#8, 0x37#8, 0x38#8, 0x39#8,
      0x41#8, 0x42#8, 0x43#8, 0x44#8, 0x45#8, 0x46#8]

/-- The two characters of a byte, the high four bits first (44_byteops.md R191; 20_memory.md R65, log 12). -/
def hexOfByte (c : HexCase) (b : Byte) : List Byte :=
  [(hexDigits c).get (Fin.ofNat 16 (b.toNat / 16)), (hexDigits c).get (Fin.ofNat 16 (b.toNat % 16))]

/-- The text of a byte sequence, two characters a byte (44_byteops.md R191). -/
def hexText (c : HexCase) (s : List Byte) : List Byte := s.flatMap (hexOfByte c)

/-- `hexval(c)` (44_byteops.md R192); `both` is `HEXDEC_BOTH`, without which the capital letters are no digits
(00_scope.md R11; log 11). -/
def hexval (both : Bool) (c : Byte) : Option Nat :=
  if 0x30 ≤ c.toNat ∧ c.toNat ≤ 0x39 then some (c.toNat - 0x30)
  else if 0x61 ≤ c.toNat ∧ c.toNat ≤ 0x66 then some (c.toNat - 0x61 + 10)
  else if both = true ∧ 0x41 ≤ c.toNat ∧ c.toNat ≤ 0x46 then some (c.toNat - 0x41 + 10)
  else none

/-- The bytes of a text of hexadecimal digits, one for each two characters (44_byteops.md R192). It is used on texts of
an even number of digits only. -/
def hexBytes (both : Bool) : List Byte → List Byte
  | hi :: lo :: rest =>
    BitVec.ofNat 8 (16 * (hexval both hi).getD 0 + (hexval both lo).getD 0) :: hexBytes both rest
  | [_] => []
  | [] => []

/-- How HEXENC ends (44_byteops.md R191). -/
def endingHexenc (c : HexCase) (s : List Byte) : Ending := .complete (hexText c s) false

/-- How HEXDEC ends (44_byteops.md R192): the length is checked before any character, and of several offending
characters the leftmost is reported. -/
def endingHexdec (both : Bool) (s : List Byte) : Ending :=
  if s.length % 2 = 1 then .raise .hexLen 0
  else
    match s.findIdx? (fun c => (hexval both c).isNone) with
    | some k => .raise .hexDigit k
    | none => .complete (hexBytes both s) false

/-- How ULT64 ends (44_byteops.md R193). -/
def endingUlt64 (a b : Word64) : Ending := .complete [] (lessUnsigned a b)

/-- HEXENC (44_byteops.md R191). -/
def execHexenc (s : State) : Host.Outcome State Fault Refusal :=
  runOperation (encode .hexenc) keepIbuf (fun s => endingHexenc hexCaseValue s.wholeOperand) s

/-- HEXDEC (44_byteops.md R192). -/
def execHexdec (s : State) : Host.Outcome State Fault Refusal :=
  runOperation (encode .hexdec) keepIbuf (fun s => endingHexdec hexdecBothValue s.wholeOperand) s

/-- REV (44_byteops.md R190), the only command that writes `IBUF` (20_memory.md R75). -/
def execRev (s : State) : Host.Outcome State Fault Refusal :=
  runOperation (encode .rev) (fun s => reverseInPlace s.wholeOperand) (fun s => endingRev s.wholeOperand) s

/-- ULT64 (44_byteops.md R193). -/
def execUlt64 (s : State) : Host.Outcome State Fault Refusal :=
  runOperation (encode .ult64) keepIbuf (fun s => endingUlt64 s.opa s.opb) s

end Sys2Proof.Machine
end

