-- ==== Sys2Proof/Machine/Base58.lean ====
section
/-! DEFINITION. Base-58 radix conversion (42_base58.md): the functions `enc` and `dec`, the commands B58ENC and B58DEC,
and the document's own step lists, which are an allowed implementation of them (93_implementation_defined.md U12). -/

namespace Sys2Proof.Machine

/-- `enc(b)` (42_base58.md R140): a zero-symbol for each leading zero byte, then the base-58 digits of the value. -/
def enc (alphabet : Vector Byte Config.base) (b : List Byte) : List Byte :=
  List.replicate (lzb b) (zsym alphabet) ++ (digits58 (be b)).map alphabet.get

/-- The loop of B58DEC (42_base58.md R145): from position `k` with the value `n` so far, the value of the whole text, or
the position of the first character that the reverse table does not hold. -/
def scanDigits (t : Tables) : (k n : Nat) → List Byte → Except Nat Nat
  | _, n, [] => .ok n
  | k, n, c :: rest =>
    match lookup t c with
    | none => .error k
    | some d => scanDigits t (k + 1) (n * Config.base + d.val) rest

/-- The procedure of B58DEC up to its ending (42_base58.md R145): the decoded bytes, or the position of the leftmost
offending character. -/
def decodeText (t : Tables) (s : List Byte) : Except Nat (List Byte) :=
  match scanDigits t (lzc t.alphabet s) 0 (s.drop (lzc t.alphabet s)) with
  | .error k => .error k
  | .ok n => .ok (zeros (lzc t.alphabet s) ++ umin n)

/-- How B58ENC ends (42_base58.md R141). -/
def endingB58enc (t : Tables) (b : List Byte) : Ending := .complete (enc t.alphabet b) false

/-- How B58DEC ends (42_base58.md R145). -/
def endingB58dec (t : Tables) (s : List Byte) : Ending :=
  match decodeText t s with
  | .error k => .raise .b58Char k
  | .ok d => .complete d false

/-- B58ENC (42_base58.md R141). -/
def execB58enc (s : State) : Host.Outcome State Fault Refusal :=
  runOperation (encode .b58enc) keepIbuf (fun s => endingB58enc s.tables s.wholeOperand) s

/-- B58DEC (42_base58.md R145). -/
def execB58dec (s : State) : Host.Outcome State Fault Refusal :=
  runOperation (encode .b58dec) keepIbuf (fun s => endingB58dec s.tables s.wholeOperand) s

/-- `val58` of a text all of whose characters are in the alphabet (42_base58.md R144). A character outside it, for which
`val58` is not defined, counts as the digit 0: `dec` is used on texts over the alphabet only. -/
def val58 (t : Tables) (s : List Byte) : Nat :=
  s.foldl (fun n c => Config.base * n + ((lookup t c).map Fin.val).getD 0) 0

/-- `dec(s)` for a text over the alphabet (42_base58.md R144). -/
def dec (t : Tables) (s : List Byte) : List Byte :=
  zeros (lzc t.alphabet s) ++ umin (val58 t (s.drop (lzc t.alphabet s)))

/-- The loop of step 4 of the document's encoding procedure (42_base58.md R142): `acc` grows by one character for each
division, least significant first. -/
def encodeLoop (alphabet : Vector Byte Config.base) : (fuel n : Nat) → (acc : List Byte) → List Byte
  | 0, _, acc => acc
  | fuel + 1, n, acc =>
    if n = 0 then acc
    else encodeLoop alphabet fuel (n / Config.base) (acc ++ [alphabet.get (Fin.ofNat Config.base n)])

/-- The document's encoding procedure, literally (42_base58.md R142). The value bounds the number of divisions. -/
def encodeSteps (alphabet : Vector Byte Config.base) (b : List Byte) : List Byte :=
  if b.length = 0 then []
  else (encodeLoop alphabet (be b) (be b) [] ++ List.replicate (lzb b) (zsym alphabet)).reverse

/-- `smin(n)`, the shortest two's complement form of a natural number (42_base58.md R146). -/
def smin (n : Nat) : List Byte :=
  match umin n with
  | [] => [0x00]
  | h :: rest => if h.toNat < 0x80 then h :: rest else 0x00 :: h :: rest

/-- Steps 4 and 5 of the document's decoding procedure after `lz` leading zero-symbols and the value `n`: the sign-bit
artifact correction (42_base58.md R146). -/
def correctSign (lz n : Nat) : List Byte :=
  match smin n with
  | [] => zeros lz
  | h :: rest =>
    if h = 0x00 then
      if lz > 0 then zeros (lz - 1) ++ h :: rest
      else rest
    else zeros lz ++ h :: rest

/-- The document's decoding procedure, literally (42_base58.md R146). -/
def decodeSteps (t : Tables) (s : List Byte) : Except Nat (List Byte) :=
  match scanDigits t (lzc t.alphabet s) 0 (s.drop (lzc t.alphabet s)) with
  | .error k => .error k
  | .ok n => .ok (correctSign (lzc t.alphabet s) n)

end Sys2Proof.Machine
end

