-- ==== Sys2Proof/Machine/Hash.lean ====
section
/-! DEFINITION. The composite hashes (41_hash.md) and the commands DHASH, DHASHW, IDHASH. Every function takes the
digest units as an argument, so that it can be run on stand-ins (00_scope.md R9); the commands use the block's own. -/

namespace Sys2Proof.Machine

/-- `DH(m) = H256(H256(m))` (41_hash.md R121). -/
def dh (d : Digests) (m : List Byte) : List Byte := (d.h256 (d.h256 m).toList).toList

/-- `IDH(m) = H160(H256(m))` (41_hash.md R122). -/
def idh (d : Digests) (m : List Byte) : List Byte := (d.h160 (d.h256 m).toList).toList

/-- How DHASH ends (41_hash.md R123). -/
def endingDhash (d : Digests) (m : List Byte) : Ending := .complete (dh d m) false

/-- How DHASHW ends (41_hash.md R124): the window is checked before any byte is read. -/
def endingDhashw (d : Digests) (space : List Byte) (off len : Nat) : Ending :=
  if windowInside space.length off len then .complete (dh d (memRead space off len)) false
  else .raise .window 0

/-- How IDHASH ends (41_hash.md R125). -/
def endingIdhash (d : Digests) (m : List Byte) : Ending := .complete (idh d m) false

/-- DHASH (41_hash.md R123). -/
def execDhash (s : State) : Host.Outcome State Fault Refusal :=
  runOperation (encode .dhash) keepIbuf (fun s => endingDhash Config.digests s.wholeOperand) s

/-- DHASHW (41_hash.md R124). -/
def execDhashw (s : State) : Host.Outcome State Fault Refusal :=
  runOperation (encode .dhashw) keepIbuf (fun s => endingDhashw Config.digests s.ibuf s.off.toNat s.len.toNat) s

/-- IDHASH (41_hash.md R125). -/
def execIdhash (s : State) : Host.Outcome State Fault Refusal :=
  runOperation (encode .idhash) keepIbuf (fun s => endingIdhash Config.digests s.wholeOperand) s

end Sys2Proof.Machine
end

