-- ==== Sys2Proof/Machine/Checksum.lean ====
section
/-! DEFINITION. Checksummed payloads (43_checksum.md) and the commands B58CENC, B58CDEC. -/

namespace Sys2Proof.Machine

/-- `cs4(p) = first4(DH(p))` (43_checksum.md R170). -/
def cs4 (d : Digests) (p : List Byte) : List Byte := first4 (dh d p)

/-- The payload part of a decoded sequence, all but its last four bytes (43_checksum.md R172). -/
def payloadPart (b : List Byte) : List Byte := memRead b 0 (b.length - Config.checksumLen)

/-- The checksum part of a decoded sequence, its last four bytes (43_checksum.md R172). -/
def checksumPart (b : List Byte) : List Byte := memRead b (b.length - Config.checksumLen) Config.checksumLen

/-- `b` is a valid checksummed payload (43_checksum.md R170). -/
def validPayload (d : Digests) (b : List Byte) : Bool :=
  decide (Config.checksumLen ≤ b.length) && decide (checksumPart b = cs4 d (payloadPart b))

/-- How B58CENC ends (43_checksum.md R171). -/
def endingB58cenc (d : Digests) (t : Tables) (p : List Byte) : Ending :=
  .complete (enc t.alphabet (p ++ cs4 d p)) false

/-- How B58CDEC ends (43_checksum.md R172): the decoding, the length, the checksum, in this order. -/
def endingB58cdec (d : Digests) (t : Tables) (s : List Byte) : Ending :=
  match decodeText t s with
  | .error k => .raise .b58Char k
  | .ok b =>
    if b.length < Config.checksumLen then .raise .csShort 0
    else if checksumPart b = cs4 d (payloadPart b) then .complete (payloadPart b) false
    else .raise .csMismatch 0

/-- B58CENC (43_checksum.md R171). -/
def execB58cenc (s : State) : Host.Outcome State Fault Refusal :=
  runOperation (encode .b58cenc) keepIbuf (fun s => endingB58cenc Config.digests s.tables s.wholeOperand) s

/-- B58CDEC (43_checksum.md R172). -/
def execB58cdec (s : State) : Host.Outcome State Fault Refusal :=
  runOperation (encode .b58cdec) keepIbuf (fun s => endingB58cdec Config.digests s.tables s.wholeOperand) s

end Sys2Proof.Machine
end

