-- ==== Sys2Proof/Machine/Dispatch.lean ====
section
/-! DEFINITION. One arm per command (30_encoding.md R92): the meaning it has. -/

namespace Sys2Proof.Machine

/-- The effect of a write of the command word of `i` (30_encoding.md R100). -/
def exec (i : Instr) (s : State) : Host.Outcome State Fault Refusal :=
  match i with
  | .b58enc => Sys2Proof.Machine.execB58enc s
  | .b58dec => Sys2Proof.Machine.execB58dec s
  | .b58cenc => Sys2Proof.Machine.execB58cenc s
  | .b58cdec => Sys2Proof.Machine.execB58cdec s
  | .dhash => Sys2Proof.Machine.execDhash s
  | .idhash => Sys2Proof.Machine.execIdhash s
  | .hexenc => Sys2Proof.Machine.execHexenc s
  | .hexdec => Sys2Proof.Machine.execHexdec s
  | .rev => Sys2Proof.Machine.execRev s
  | .ult64 => Sys2Proof.Machine.execUlt64 s
  | .dhashw => Sys2Proof.Machine.execDhashw s

end Sys2Proof.Machine
end

