-- ==== Sys2Proof/Machine/HostOps.lean ====
section
/-! DEFINITION. The host operations (20_memory.md R73), the register port (10_state.md R38) and the reset event
(70_reset_and_hazards.md R260 to R263). Each works in either phase (20_memory.md R73, 60_exceptions.md R228). -/

namespace Sys2Proof.Machine

/-- A reserved command word: it is stored in `CMD`, runs no operation and fails with `E_ILLEGAL`
(30_encoding.md R94, R100; log 20). -/
def execReserved (w : Byte) (s : State) : Host.Outcome State Fault Refusal :=
  runOperation w keepIbuf (fun _ => .raise .illegal 0) s

/-- `HostWrite(CMD, w)` (30_encoding.md R100): the word is decoded, and its command runs to its end. -/
def hostCommand (w : Byte) (s : State) : Host.Outcome State Fault Refusal :=
  match decode w with
  | .ok i => exec i s
  | .error _ => execReserved w s

/-- `HostLoad(v)` for a capacity `cap` (20_memory.md R73): the whole operand is replaced; a longer one is refused
(93_implementation_defined.md U6). -/
def hostLoad (cap : Option Nat) (v : List Byte) (s : State) : Host.Outcome State Fault Refusal :=
  if Config.fits cap v.length then .next (s.setIbuf v) else .refused .operandTooLong

/-- The script's load of what the host last read, with host-chosen bytes in front (30_encoding.md R99; log 16). -/
def hostLoadReply (cap : Option Nat) (lead : List Byte) (s : State) : Host.Outcome State Fault Refusal :=
  match s.reply with
  | some (.elements v) => hostLoad cap (lead ++ v) s
  | some (.value _) => .refused .noSequenceRead
  | none => .refused .noSequenceRead

/-- `HostWrite(r, v)` (20_memory.md R73). A write of a read-only or reserved register is ignored, and a write of `ILEN`
alone is no operation (10_state.md R38; log 15). -/
def hostWrite (r : Reg) (v : Nat) (s : State) : Host.Outcome State Fault Refusal :=
  match r with
  | .cmd => if regAccepts .cmd v then hostCommand (BitVec.ofNat 8 v) s else .refused .valueOutOfRange
  | .off => if regAccepts .off v then .next { s with off := BitVec.ofNat 32 v } else .refused .valueOutOfRange
  | .len => if regAccepts .len v then .next { s with len := BitVec.ofNat 32 v } else .refused .valueOutOfRange
  | .opa => if regAccepts .opa v then .next { s with opa := BitVec.ofNat 64 v } else .refused .valueOutOfRange
  | .opb => if regAccepts .opb v then .next { s with opb := BitVec.ofNat 64 v } else .refused .valueOutOfRange
  | .ilen => .refused .ilenWrittenAlone
  | .status => .next s
  | .olen => .next s
  | .flag => .next s
  | .errpos => .next s
  | .reserved _ => .next s

/-- The value of a scalar register (20_memory.md R73); a reserved number reads 0 (10_state.md R38). -/
def regValue (r : Reg) (s : State) : Nat :=
  match r with
  | .cmd => s.cmd.toNat
  | .status => s.status.toNat
  | .ilen => s.ilen
  | .olen => s.olen
  | .off => s.off.toNat
  | .len => s.len.toNat
  | .opa => s.opa.toNat
  | .opb => s.opb.toNat
  | .flag => s.flag.toNat
  | .errpos => s.errpos
  | .reserved _ => 0

/-- The elements of a buffer: `HostReadI()` returns `IBUF[0..ILEN)`, `HostReadO()` returns `OBUF[0..OLEN)`
(20_memory.md R73). -/
def bufferContents (b : Buffer) (s : State) : List Byte :=
  match b with
  | .ibuf => memRead s.ibuf 0 s.ilen
  | .obuf => memRead s.obuf 0 s.olen

/-- The read of one element; at or beyond the buffer's length there is none (20_memory.md R72;
93_implementation_defined.md U7; log 14). -/
def hostReadElement (b : Buffer) (i : Nat) (s : State) : Host.Outcome State Fault Refusal :=
  match (bufferContents b s)[i]? with
  | some v => .next (s.setReply (.value v.toNat))
  | none => .refused .readBeyondLength

/-- One host operation (20_memory.md R73), or the reset event (70_reset_and_hazards.md R260; log 13, log 21). -/
def hostOperation (op : HostOp) (s : State) : Host.Outcome State Fault Refusal :=
  match op with
  | .load v => hostLoad Config.maxLen v s
  | .loadReply lead => hostLoadReply Config.maxLen lead s
  | .readBuffer b => .next (s.setReply (.elements (bufferContents b s)))
  | .readElement b i => hostReadElement b i s
  | .writeReg r v => hostWrite r v s
  | .readReg r => .next (s.setReply (.value (regValue r s)))
  | .reset => .next (State.afterReset digestsPresentValue s.pending s.reply)

/-- The host operation at the head of those pending is taken and performed (20_memory.md R76). With none pending the run
has ended: the core has no step of its own (70_reset_and_hazards.md R268; log 3). -/
def takeOperation (s : State) : Host.Outcome State Fault Refusal :=
  match s.pending with
  | [] => .fault .runEnded
  | op :: rest => hostOperation op (s.setPending rest)

/-- `s` with the host's write of the command word that a table row's bits give as its next operation (log 1). -/
def withCommandWord (s : State) (nbits w : Nat) : State :=
  s.setPending (.writeReg .cmd (tableWord nbits w).toNat :: s.pending)

end Sys2Proof.Machine
end

