-- ==== Sys2Proof/Machine/Script.lean ====
section
/-! DEFINITION. Runs (70_reset_and_hazards.md R268) and host scripts (30_encoding.md R98, R99): the host operations each
line stands for, and the checks. -/

namespace Sys2Proof.Machine

/-- A run of `k` host operations (70_reset_and_hazards.md R268), stopping at the first that stops. -/
def runSteps : (k : Nat) → (s : State) → Host.Outcome State Fault Refusal
  | 0, s => .next s
  | k + 1, s =>
    match step s with
    | .next t => runSteps k t
    | .fault r => .fault r
    | .refused r => .refused r

/-- The host operations of one script line (30_encoding.md R98, R99). An `EXPECT` line is "a check, not an operation". -/
def expandLine (l : ScriptLine) : List HostOp :=
  match l with
  | .ldi s => [.load s]
  | .setw off len => [.writeReg .off off, .writeReg .len len]
  | .seta v => [.writeReg .opa v]
  | .setb v => [.writeReg .opb v]
  | .cmd i => [.writeReg .cmd (encode i).toNat]
  | .cmdWord w => [.writeReg .cmd w.toNat]
  | .expect _ => []
  | .ldo lead => [.readBuffer .obuf, .loadReply lead]
  | .call i s => [.load s, .writeReg .cmd (encode i).toNat]

/-- The host operations of a script, executed top to bottom (30_encoding.md R98). -/
def expandScript (ls : List ScriptLine) : List HostOp := ls.flatMap expandLine

/-- An `EXPECT` check holds in a state (30_encoding.md R98). -/
def checkHolds (c : Check) (s : State) : Bool :=
  match c with
  | .reg r v => decide (regValue r s = v)
  | .buffer b v => decide (bufferContents b s = v)

/-- The block with a script loaded as the host's coming operations (70_reset_and_hazards.md R268; log 1). -/
def State.withScript (s : State) (ls : List ScriptLine) : State := s.setPending (s.pending ++ expandScript ls)

end Sys2Proof.Machine
end

