-- ==== Sys2Proof/Machine/Transaction.lean ====
section
/-! DEFINITION. The transaction view (30_encoding.md R103): one transaction as a pure function of the configuration and
its arguments, the host operations that make it up, and the digest applications of a command (41_hash.md R128). -/

namespace Sys2Proof.Machine

/-- What a transaction gives the host: `(code, errpos, out, flag, data')` (30_encoding.md R103). -/
structure CallResult where
  code   : BitVec 4
  errpos : Nat
  out    : List Byte
  flag   : Bool
  data   : List Byte
  deriving DecidableEq, Repr

/-- The configuration a transaction depends on (00_scope.md R12, 10_state.md R36). -/
structure CallConfig where
  digests   : Digests
  tables    : Tables
  hexCase   : HexCase
  bothCases : Bool

/-- The configuration of this hardware (00_scope.md R12). -/
def callConfigValue : CallConfig := ⟨Config.digests, tablesValue, hexCaseValue, hexdecBothValue⟩

/-- How a command ends, as a function of the configuration and the operands alone (10_state.md R36). -/
def callEnding (c : CallConfig) (i : Instr) (data : List Byte) (off len : Nat) (a b : Word64) : Ending :=
  match i with
  | .b58enc => endingB58enc c.tables data
  | .b58dec => endingB58dec c.tables data
  | .b58cenc => endingB58cenc c.digests c.tables data
  | .b58cdec => endingB58cdec c.digests c.tables data
  | .dhash => endingDhash c.digests data
  | .idhash => endingIdhash c.digests data
  | .hexenc => endingHexenc c.hexCase data
  | .hexdec => endingHexdec c.bothCases data
  | .rev => .complete data.reverse false
  | .ult64 => endingUlt64 a b
  | .dhashw => endingDhashw c.digests data off len

/-- The result a transaction reports for an ending (30_encoding.md R100, R103). -/
def resultOfEnding (data : List Byte) (e : Ending) : CallResult :=
  match e with
  | .complete out flag => ⟨0, 0, out, flag, data⟩
  | .raise k pos => ⟨errorCode k, pos, [], false, data⟩

/-- `call(w, data, off, len, a, b)` (30_encoding.md R103). -/
def call (c : CallConfig) (w : Byte) (data : List Byte) (off len : Nat) (a b : Word64) : CallResult :=
  match decode w with
  | .error _ => resultOfEnding data (.raise .illegal 0)
  | .ok .rev => resultOfEnding data.reverse (callEnding c .rev data off len a b)
  | .ok i => resultOfEnding data (callEnding c i data off len a b)

/-- The host operations of a transaction up to and with its command (30_encoding.md R103). -/
def callScript (w : Byte) (data : List Byte) (off len : Word32) (a b : Word64) : List HostOp :=
  [.load data, .writeReg .off off.toNat, .writeReg .len len.toNat, .writeReg .opa a.toNat, .writeReg .opb b.toNat,
    .writeReg .cmd w.toNat]

/-- What the host reads off the result registers after a transaction (30_encoding.md R103). -/
def resultRegisters (s : State) : CallResult := ⟨s.code, s.errpos, s.obuf, s.flag, s.ibuf⟩

/-- One application of a digest unit, with the message handed over (60_exceptions.md R230). -/
inductive DigestCall where
  | h256 (m : List Byte)
  | h160 (m : List Byte)
  deriving DecidableEq, Repr

/-- The applications that make up `DH(m)` (41_hash.md R121). -/
def dhCalls (d : Digests) (m : List Byte) : List DigestCall := [.h256 m, .h256 (d.h256 m).toList]

/-- The digest applications of a command, in order (41_hash.md R128; log 22). -/
def digestCalls (c : CallConfig) (i : Instr) (data : List Byte) (off len : Nat) : List DigestCall :=
  match i with
  | .dhash => dhCalls c.digests data
  | .dhashw => if windowInside data.length off len then dhCalls c.digests (memRead data off len) else []
  | .b58cenc => dhCalls c.digests data
  | .idhash => [.h256 data, .h160 (c.digests.h256 data).toList]
  | .b58cdec =>
    match decodeText c.tables data with
    | .ok b => if b.length < Config.checksumLen then [] else dhCalls c.digests (payloadPart b)
    | .error _ => []
  | .b58enc => []
  | .b58dec => []
  | .hexenc => []
  | .hexdec => []
  | .rev => []
  | .ult64 => []

end Sys2Proof.Machine
end

