-- ==== Sys2Proof/Safety.lean ====
section
/-! DEFINITION. What counts as a good state and a good text, in the terms the statements use: the table invariants
(10_state.md R23), the errors each command word can end in (30_encoding.md R92, 60_exceptions.md R221), the invariant of
the block, and which registers a command reads (10_state.md R34). -/

namespace Sys2Proof.Machine

/-- The invariants of the two tables (10_state.md R23). -/
structure TablesOk (t : Tables) : Prop where
  distinct : ∀ i j, t.alphabet.get i = t.alphabet.get j → i = j
  indexed  : ∀ i, lookup t (t.alphabet.get i) = some i
  spelled  : ∀ c i, lookup t c = some i → t.alphabet.get i = c

/-- The constraints on a value of `ALPHABET` (00_scope.md R8): 58 distinct codes of printable characters, none of them
the digit zero, capital O, capital I or small l. Printable is the ASCII range 0x21 to 0x7E (log 12). -/
def alphabetAdmissible (alphabet : Vector Byte Config.base) : Prop :=
  (∀ i j, alphabet.get i = alphabet.get j → i = j) ∧
  (∀ i, 0x21 ≤ (alphabet.get i).toNat ∧ (alphabet.get i).toNat ≤ 0x7E) ∧
  (∀ i, alphabet.get i ∉ [0x30#8, 0x4F#8, 0x49#8, 0x6C#8])

/-- Every element of a text is in the alphabet (42_base58.md R144). -/
def overAlphabet (t : Tables) (s : List Byte) : Prop := ∀ c ∈ s, lookup t c ≠ none

/-- `k` is the position of the leftmost element of `s` that `bad` holds of (60_exceptions.md R221). -/
def leftmostAt (bad : Byte → Prop) (s : List Byte) (k : Nat) : Prop :=
  (∃ c, s[k]? = some c ∧ bad c) ∧ ∀ j c, j < k → s[j]? = some c → ¬ bad c

/-- The errors that a command word can end in (30_encoding.md R92 and R94, 60_exceptions.md R221). -/
def possibleErrors (w : Byte) : List ErrorKind :=
  match decode w with
  | .error _ => [.illegal]
  | .ok .b58enc => []
  | .ok .b58dec => [.b58Char]
  | .ok .b58cenc => []
  | .ok .b58cdec => [.b58Char, .csShort, .csMismatch]
  | .ok .dhash => []
  | .ok .idhash => []
  | .ok .hexenc => []
  | .ok .hexdec => [.hexLen, .hexDigit]
  | .ok .rev => []
  | .ok .ult64 => []
  | .ok .dhashw => [.window]

/-- The commands whose result is a digest, and its length, the same for every operand and every capacity
(20_memory.md R81, 41_hash.md R126). -/
def digestLength (i : Instr) : Option Nat :=
  match i with
  | .dhash => some Config.digest256Len
  | .dhashw => some Config.digest256Len
  | .idhash => some Config.digest160Len
  | .b58enc => none
  | .b58dec => none
  | .b58cenc => none
  | .b58cdec => none
  | .hexenc => none
  | .hexdec => none
  | .rev => none
  | .ult64 => none

/-- What every reachable state satisfies, and every step keeps. -/
structure State.Inv (s : State) : Prop where
  /-- 10_state.md R23. -/
  tables : TablesOk s.tables
  /-- 10_state.md R24: `ILEN <= MAXLEN`. -/
  operandFits : Config.fits Config.maxLen s.ilen = true
  /-- 10_state.md R31: `ERRPOS <= MAXLEN`. -/
  errposFits : Config.fits Config.maxLen s.errpos = true
  /-- 60_exceptions.md R221: only the two character errors record a position. -/
  errposKind : s.errpos ≠ 0 → s.code = errorCode .b58Char ∨ s.code = errorCode .hexDigit
  /-- 60_exceptions.md R221: the code is `OK` or one that the command in `CMD` can end in. -/
  outcome : s.code = 0 ∨ ∃ e ∈ possibleErrors s.cmd, s.code = errorCode e
  /-- 60_exceptions.md R224, R225: a failing command leaves no part of a result. -/
  failClosed : s.code ≠ 0 → s.obuf = [] ∧ s.flag = false
  /-- 10_state.md R28: only ULT64 sets `FLAG`, and it has no sequence result. -/
  flagOnly : s.flag = true → s.cmd = encode .ult64 ∧ s.obuf = []
  /-- 00_scope.md R10, 20_memory.md R81: no result exceeds `OCAP`. -/
  resultFits : Config.fits (Config.ocap Config.maxLen) s.olen = true
  /-- 60_exceptions.md R228: in `FATAL` no command has run since reset. -/
  fatalQuiet : s.phase = .fatal →
    s.cmd = 0x00 ∧ s.code = 0 ∧ s.errpos = 0 ∧ s.obuf = [] ∧ s.flag = false

/-- Two states agree on the configuration and on the operand registers that the command word `w` reads
(10_state.md R34, R36). -/
def readsAgree (w : Byte) (s s' : State) : Prop :=
  s.tables = s'.tables ∧
  match decode w with
  | .error _ => True
  | .ok .ult64 => s.opa = s'.opa ∧ s.opb = s'.opb
  | .ok .dhashw => s.ibuf = s'.ibuf ∧ s.off = s'.off ∧ s.len = s'.len
  | .ok _ => s.ibuf = s'.ibuf

/-- Two digest units give the same digest in one application (60_exceptions.md R230). -/
def agreeOn (d d' : Digests) (c : DigestCall) : Prop :=
  match c with
  | .h256 m => d.h256 m = d'.h256 m
  | .h160 m => d.h160 m = d'.h160 m

/-- A byte sequence with bit `j` of byte `k` flipped (43_checksum.md R173). -/
def flipBit (s : List Byte) (k j : Nat) : List Byte := s.modify k (fun b => b ^^^ (1#8 <<< j))

end Sys2Proof.Machine
end

