-- ==== Sys2Proof/Certificates/Slice0/Obligations.lean ====
section
/-! DEFINITION. The statements for the provers, each a rule of the spec or an inference from rules. -/

section
open Sys2Proof Sys2Proof.Machine

/-! ### Helpers and encodings -/

/-- 00_scope.md R15, the helpers `be`, `umin`, `lzb`, `lzc`, `first4`: "`be([]) = 0`, `be(s ++ [b]) = 256*be(s) + b`";
`umin(n)` is "the shortest byte sequence `s` with `be(s) = n`"; the leading counts are of elements equal to byte 0 or to
`ZSYM`, "both count the whole sequence when every element matches". -/
def Obligations.SequenceHelpers : Prop :=
  be [] = 0 ∧
  (∀ s b, be (s ++ [b]) = 256 * be s + b.toNat) ∧
  umin 0 = [] ∧
  (∀ n, be (umin n) = n) ∧
  (∀ n, 0 < n → ∃ h t, umin n = h :: t ∧ h ≠ 0) ∧
  (∀ n s, be s = n → (umin n).length ≤ s.length) ∧
  (∀ n s, be s = n → s.length = (umin n).length → s = umin n) ∧
  (∀ s : List Byte, lzb s ≤ s.length ∧ (∀ x ∈ s.take (lzb s), x = 0) ∧ ∀ x, s[lzb s]? = some x → x ≠ 0) ∧
  (∀ A s, lzc A s ≤ s.length ∧ (∀ x ∈ s.take (lzc A s), x = A.get 0) ∧ ∀ x, s[lzc A s]? = some x → x ≠ A.get 0) ∧
  (∀ d, 4 ≤ d.length → (first4 d).length = 4 ∧ ∀ k, k < 4 → (first4 d)[k]? = d[k]?)

/-- 42_base58.md R140: "`digits58(0) = []`, and for `n > 0`, `digits58(n) = digits58(n div 58) ++ [n mod 58]`", the
formula of `enc`, and "`be(b) = be(b[lzb(b)..|b|))`". -/
def Obligations.EncodingFunction : Prop :=
  digits58 0 = [] ∧
  (∀ n, 0 < n → digits58 n = digits58 (n / 58) ++ [Fin.ofNat 58 (n % 58)]) ∧
  (∀ A b, enc A b = List.replicate (lzb b) (A.get 0) ++ (digits58 (be b)).map A.get) ∧
  (∀ b, be b = be (b.drop (lzb b)))

/-- 42_base58.md R144: `dec`, with "`val58([]) = 0`, `val58(t ++ [c]) = 58*val58(t) + INDEXES[c]`"; for a text with an
element outside the alphabet "`dec` is not defined and the command fails". -/
def Obligations.DecodingFunction : Prop :=
  (∀ T s, dec T s = List.replicate (lzc T.alphabet s) 0 ++ umin (val58 T (s.drop (lzc T.alphabet s)))) ∧
  (∀ T, val58 T [] = 0) ∧
  (∀ T t c i, lookup T c = some i → val58 T (t ++ [c]) = 58 * val58 T t + i.val) ∧
  (∀ s : State, s.phase = .ready → TablesOk s.tables → (∃ c ∈ s.ibuf, lookup s.tables c = none) →
    ∃ t, exec .b58dec s = .next t ∧ t.code = 1 ∧ t.obuf = [])

/-- 30_encoding.md R91: the decoder's test for an operation is equality with its word of 30_encoding.md R92, a word
selects an operation if and only if "`w[7:4] = 0` and `w[3:0]` is one of the eleven values", and every other word is
reserved. -/
def Obligations.DecoderIsExact : Prop :=
  ([Instr.b58enc, .b58dec, .b58cenc, .b58cdec, .dhash, .idhash, .hexenc, .hexdec, .rev, .ult64, .dhashw].map encode =
    [0x01, 0x02, 0x03, 0x04, 0x05, 0x06, 0x07, 0x08, 0x09, 0x0A, 0x0B]) ∧
  (∀ w i, decode w = .ok i ↔ w = encode i) ∧
  (∀ w : Byte, (∃ i, decode w = .ok i) ↔ w.toNat / 16 = 0 ∧ 1 ≤ w.toNat % 16 ∧ w.toNat % 16 ≤ 11) ∧
  (∀ w : Byte, (∃ e, decode w = .error e) ↔ 16 ≤ w.toNat ∨ w.toNat ∈ [0x0, 0xC, 0xD, 0xE, 0xF])

/-- Sanity: some words of 30_encoding.md R92 and R94, written bit by bit, decode to what they stand for. -/
def Obligations.SpecWordsDecode : Prop :=
  decode 0b00000001 = .ok .b58enc ∧ decode 0b00000100 = .ok .b58cdec ∧ decode 0b00000110 = .ok .idhash ∧
  decode 0b00001000 = .ok .hexdec ∧ decode 0b00001010 = .ok .ult64 ∧ decode 0b00001011 = .ok .dhashw ∧
  decode 0b00000000 = .error .reservedOperation ∧ decode 0b00001100 = .error .reservedOperation ∧
  decode 0b00010010 = .error .reservedField

/-- 10_state.md section 8: the register numbers, the reserved numbers that read 0, the ignored writes of the read-only and
the reserved registers, the write of `ILEN` alone, and that no host operation but a load (and a reset) changes `ILEN`. The
spec says of the write of `ILEN` alone that it "is not a defined operation": that it has no next state is DEDUCED
(log 15). The value read is shown in the model's own reply field (log 2). -/
def Obligations.RegisterPort : Prop :=
  ([0, 1, 2, 3, 4, 5, 6, 7, 8, 9].map regOfNumber =
    [.cmd, .status, .ilen, .olen, .off, .len, .opa, .opb, .flag, .errpos]) ∧
  (∀ n : BitVec 4, 10 ≤ n.toNat → ∃ k, regOfNumber n = .reserved k) ∧
  (∀ n, numberOfReg (regOfNumber n) = n) ∧
  (∀ r, regOfNumber (numberOfReg r) = r) ∧
  (∀ (s : State) (rest : List HostOp) (k : Fin 6), s.pending = .readReg (.reserved k) :: rest →
    step s = .next { s with pending := rest, reply := some (.value 0) }) ∧
  (∀ (s : State) (rest : List HostOp) (r : Reg) (v : Nat),
    (r = .status ∨ r = .olen ∨ r = .flag ∨ r = .errpos ∨ ∃ k, r = .reserved k) →
    s.pending = .writeReg r v :: rest → step s = .next { s with pending := rest }) ∧
  (∀ (s : State) (rest : List HostOp) (v : Nat),
    s.pending = .writeReg .ilen v :: rest → ∀ t, step s ≠ .next t) ∧
  (∀ (s t : State) (op : HostOp) (rest : List HostOp), s.pending = op :: rest → step s = .next t →
    (∀ v, op ≠ .load v) → (∀ v, op ≠ .loadReply v) → op ≠ .reset → t.ilen = s.ilen)

/-! ### The tables and reset -/

/-- 10_state.md section 2: for every alphabet of distinct codes, the derived `INDEXES` is its inverse: "`INDEXES[c] = i`
if `ALPHABET[i] = c`" and -1 otherwise, and the invariants of the two tables hold. -/
def Obligations.TablesFromAlphabet : Prop :=
  ∀ A : Vector Byte 58, (∀ i j, A.get i = A.get j → i = j) →
    TablesOk ⟨A, buildIndexes A⟩ ∧
    (∀ c i, lookup ⟨A, buildIndexes A⟩ c = some i ↔ A.get i = c) ∧
    (∀ c, lookup ⟨A, buildIndexes A⟩ c = none ↔ ∀ i, A.get i ≠ c)

/-- The alphabet of this hardware meets the constraints of 00_scope.md section 4. The string is the spec's general
knowledge (log 10). -/
def Obligations.AlphabetAdmissible : Prop :=
  alphabetAdmissible alphabetValue ∧ alphabetValue.get 0 = 0x31#8

/-- 10_state.md R37 and 70_reset_and_hazards.md R263: the reset event, whatever the state, gives every register its reset
value and keeps nothing of the operand, the results or the outcome; when reset ends, `DIGESTS_PRESENT` decides between
`READY` with `STATUS` reading `0x00` and `FATAL` with `STATUS` reading `0x80`. The tables are the parameter `ALPHABET` and
what is derived from it; which characters `alphabetValue` holds does not enter. -/
def Obligations.ResetValues : Prop :=
  (∀ (s : State) (rest : List HostOp), s.pending = .reset :: rest →
    ∃ t, step s = .next t ∧ t.tables = ⟨alphabetValue, buildIndexes alphabetValue⟩ ∧ t.phase = .ready ∧
      t.ibuf = [] ∧ t.ilen = 0 ∧ t.off = 0 ∧ t.len = 0 ∧ t.opa = 0 ∧ t.opb = 0 ∧ t.cmd = 0x00 ∧ t.status = 0x00 ∧
      t.errpos = 0 ∧ t.obuf = [] ∧ t.olen = 0 ∧ t.flag = false) ∧
  (∀ present p r, ∃ t, State.afterReset present p r = t ∧
    t.tables = ⟨alphabetValue, buildIndexes alphabetValue⟩ ∧ t.phase = (if present then .ready else .fatal) ∧
    t.ibuf = [] ∧ t.ilen = 0 ∧ t.off = 0 ∧ t.len = 0 ∧ t.opa = 0 ∧ t.opb = 0 ∧ t.cmd = 0x00 ∧
    t.status = (if present then 0x00 else 0x80) ∧ t.errpos = 0 ∧ t.obuf = [] ∧ t.olen = 0 ∧ t.flag = false) ∧
  State.reset = State.afterReset true [] none

/-- The block's invariant holds right after reset, for either value of `DIGESTS_PRESENT`. -/
def Obligations.ResetHasInv : Prop :=
  ∀ present p r, (State.afterReset present p r).Inv

/-! ### The hash commands -/

/-- 41_hash.md R123: DHASH completes with `DH(IBUF)`, for every content of `IBUF`, and changes nothing else. -/
def Obligations.DhashCompletes : Prop :=
  ∀ s : State, s.phase = .ready →
    exec .dhash s = .next
      { s with cmd := 0x05, code := 0, errpos := 0, flag := false,
               obuf := (Config.h256 (Config.h256 s.ibuf).toList).toList }

/-- 41_hash.md R125: IDHASH completes with `IDH(IBUF)`, for every content of `IBUF`, and changes nothing else. -/
def Obligations.IdhashCompletes : Prop :=
  ∀ s : State, s.phase = .ready →
    exec .idhash s = .next
      { s with cmd := 0x06, code := 0, errpos := 0, flag := false,
               obuf := (Config.h160 (Config.h256 s.ibuf).toList).toList }

/-- 41_hash.md R124: DHASHW completes with the double hash of `IBUF[OFF..OFF+LEN)` when the window lies inside the
operand, the empty window at its end included, and fails with `E_WINDOW` when it does not. The sum does not wrap. -/
def Obligations.DhashwOutcomes : Prop :=
  ∀ s : State, s.phase = .ready →
    (s.off.toNat + s.len.toNat ≤ s.ibuf.length →
      exec .dhashw s = .next
        { s with cmd := 0x0B, code := 0, errpos := 0, flag := false,
                 obuf := (Config.h256 (Config.h256 ((s.ibuf.drop s.off.toNat).take s.len.toNat)).toList).toList }) ∧
    (s.ibuf.length < s.off.toNat + s.len.toNat →
      exec .dhashw s = .next { s with cmd := 0x0B, code := 6, errpos := 0, flag := false, obuf := [] })

/-- Inference of 41_hash.md section 2: "two operands that agree on `[OFF, OFF+LEN)` give the same `OBUF`", whatever
stands outside the window and however long the operands are. -/
def Obligations.DhashwReadsWindowOnly : Prop :=
  ∀ s s' : State, s.phase = .ready → s'.phase = .ready → s.off = s'.off → s.len = s'.len →
    s.off.toNat + s.len.toNat ≤ s.ibuf.length → s.off.toNat + s.len.toNat ≤ s'.ibuf.length →
    (∀ k, s.off.toNat ≤ k → k < s.off.toNat + s.len.toNat → s.ibuf[k]? = s'.ibuf[k]?) →
    ∃ t t', exec .dhashw s = .next t ∧ exec .dhashw s' = .next t' ∧ t.obuf = t'.obuf ∧ t.code = 0 ∧ t'.code = 0

/-- Inference of 41_hash.md sections 2 and 3: "`DHASHW` with `OFF = 0`, `LEN = ILEN` equals `DHASH`", but for the word
left in `CMD`. -/
def Obligations.DhashwOfWholeIsDhash : Prop :=
  ∀ s : State, s.phase = .ready → s.off = 0 → s.len.toNat = s.ibuf.length →
    ∃ t, exec .dhash s = .next t ∧ exec .dhashw s = .next { t with cmd := 0x0B }

/-- Inferences of 41_hash.md section 3: the number of digest applications of each command, that the second application
of a double hash has a 32-byte message, and that a command's ending depends on the digest units through those
applications alone. -/
def Obligations.DigestApplications : Prop :=
  (∀ c i data off len, (digestCalls c i data off len).length =
    (match i with
      | .dhash => 2
      | .b58cenc => 2
      | .idhash => 2
      | .dhashw => if off + len ≤ data.length then 2 else 0
      | .b58cdec =>
        match decodeText c.tables data with
        | .ok b => if 4 ≤ b.length then 2 else 0
        | .error _ => 0
      | _ => 0)) ∧
  (∀ d m, ∃ m2, dhCalls d m = [.h256 m, .h256 m2] ∧ m2.length = 32) ∧
  (∀ (c : CallConfig) (d : Digests) (i : Instr) (data : List Byte) (off len : Nat) (a b : Word64),
    (∀ x ∈ digestCalls c i data off len, agreeOn c.digests d x) →
    callEnding c i data off len a b = callEnding { c with digests := d } i data off len a b)

/-! ### The Base-58 commands -/

/-- 42_base58.md R141: B58ENC completes with `enc(IBUF)`, for every content of `IBUF`, and changes nothing else. -/
def Obligations.B58encCompletes : Prop :=
  ∀ s : State, s.phase = .ready →
    exec .b58enc s = .next
      { s with cmd := 0x01, code := 0, errpos := 0, flag := false, obuf := enc s.tables.alphabet s.ibuf }

/-- 42_base58.md R145: B58DEC of a text over the alphabet completes with its decoding, and of any other text fails with
`E_B58_CHAR` and the position of the leftmost offending character; nothing else changes. `dec` is the decoding function
that the rule's loop computes. -/
def Obligations.B58decOutcomes : Prop :=
  ∀ s : State, s.phase = .ready → TablesOk s.tables →
    (overAlphabet s.tables s.ibuf →
      exec .b58dec s = .next
        { s with cmd := 0x02, code := 0, errpos := 0, flag := false, obuf := dec s.tables s.ibuf }) ∧
    (∀ k, leftmostAt (fun c => lookup s.tables c = none) s.ibuf k →
      exec .b58dec s = .next { s with cmd := 0x02, code := 1, errpos := k, flag := false, obuf := [] })

/-- Inference of 42_base58.md section 1: the document's six steps compute `enc`. -/
def Obligations.EncodeStepsComputeEnc : Prop :=
  ∀ A b, encodeSteps A b = enc A b

/-- Inference of 42_base58.md section 2: the document's five steps, the sign-bit artifact correction among them, give the
result of the command's procedure for every text, and `dec` for a text over the alphabet. -/
def Obligations.DecodeStepsComputeDec : Prop :=
  (∀ T s, decodeSteps T s = decodeText T s) ∧
  (∀ T s, TablesOk T → overAlphabet T s → decodeSteps T s = .ok (dec T s))

/-- 42_base58.md section 3 (a): "`decode(encode(b)) == b` for all byte sequences `b`", at the level of the block:
B58DEC of the result of B58ENC completes and gives the operand back. -/
def Obligations.Base58RoundTrip : Prop :=
  ∀ s : State, s.phase = .ready → TablesOk s.tables →
    ∃ t u, exec .b58enc s = .next t ∧ exec .b58dec { t with ibuf := t.obuf } = .next u ∧
      u.code = 0 ∧ u.obuf = s.ibuf

/-- 42_base58.md section 3 (b): "`encode(decode(s)) == s` for all strings `s` composed only of alphabet characters", at
the level of the block. -/
def Obligations.Base58TextRoundTrip : Prop :=
  ∀ s : State, s.phase = .ready → TablesOk s.tables → overAlphabet s.tables s.ibuf →
    ∃ t u, exec .b58dec s = .next t ∧ t.code = 0 ∧ exec .b58enc { t with ibuf := t.obuf } = .next u ∧
      u.obuf = s.ibuf

/-- 42_base58.md section 3 (c) to (f), of which (d) is the spec's inference: `enc` is injective, leading zeros correspond
one for one, the empty sequence corresponds to the empty text, and a result is over the alphabet. -/
def Obligations.Base58Laws : Prop :=
  ∀ T, TablesOk T →
    (∀ b b', enc T.alphabet b = enc T.alphabet b' → b = b') ∧
    (∀ b, lzc T.alphabet (enc T.alphabet b) = lzb b) ∧
    (∀ s, overAlphabet T s → lzb (dec T s) = lzc T.alphabet s) ∧
    enc T.alphabet [] = [] ∧ dec T [] = [] ∧
    (∀ b, overAlphabet T (enc T.alphabet b) ∧ ∀ c ∈ enc T.alphabet b, ∃ i, T.alphabet.get i = c)

/-- Inferences of 42_base58.md section 3: "`|digits58(n)|` is the least `d` with `n < 58^d`", "`|umin(n)|` the least `k`
with `n < 256^k`", and the lengths and bounds of `enc` and `dec` that follow. -/
def Obligations.Base58Lengths : Prop :=
  (∀ n, n < 58 ^ (digits58 n).length ∧ ∀ d, n < 58 ^ d → (digits58 n).length ≤ d) ∧
  (∀ n, n < 256 ^ (umin n).length ∧ ∀ k, n < 256 ^ k → (umin n).length ≤ k) ∧
  (∀ A b, (enc A b).length = lzb b + (digits58 (be b)).length ∧ (enc A b).length ≤ 2 * b.length) ∧
  (∀ T s, (dec T s).length = lzc T.alphabet s + (umin (val58 T (s.drop (lzc T.alphabet s)))).length ∧
    (dec T s).length ≤ s.length)

/-! ### The checksum commands -/

/-- 43_checksum.md R170: the checksum is the first four elements of the double hash, and `p ++ cs4(p)` is a valid
checksummed payload of `|p| + 4` bytes; validity is what the rule says it is. -/
def Obligations.ChecksummedPayload : Prop :=
  ∀ d p, cs4 d p = (dh d p).take 4 ∧ (cs4 d p).length = 4 ∧
    (p ++ cs4 d p).length = p.length + 4 ∧ validPayload d (p ++ cs4 d p) = true ∧
    ∀ b, validPayload d b = true ↔ 4 ≤ b.length ∧ b.drop (b.length - 4) = cs4 d (b.take (b.length - 4))

/-- 43_checksum.md R171: B58CENC completes with `enc(p ++ first4(DH(p)))`, for every payload `p` in `IBUF`, and changes
nothing else. -/
def Obligations.B58cencCompletes : Prop :=
  ∀ s : State, s.phase = .ready →
    exec .b58cenc s = .next
      { s with cmd := 0x03, code := 0, errpos := 0, flag := false,
               obuf := enc s.tables.alphabet
                 (s.ibuf ++ (Config.h256 (Config.h256 s.ibuf).toList).toList.take 4) }

/-- 43_checksum.md R172: B58CDEC fails with `E_B58_CHAR` at the leftmost offending character, then with `E_CS_SHORT` on
fewer than four decoded bytes, then with `E_CS_MISMATCH`, and otherwise completes with the payload; a bare checksum of
the empty payload completes with the empty payload. Nothing else changes. -/
def Obligations.B58cdecOutcomes : Prop :=
  ∀ s : State, s.phase = .ready → TablesOk s.tables →
    (∀ k, leftmostAt (fun c => lookup s.tables c = none) s.ibuf k →
      exec .b58cdec s = .next { s with cmd := 0x04, code := 1, errpos := k, flag := false, obuf := [] }) ∧
    (∀ d, overAlphabet s.tables s.ibuf → dec s.tables s.ibuf = d →
      exec .b58cdec s = .next
        (if d.length < 4 then { s with cmd := 0x04, code := 2, errpos := 0, flag := false, obuf := [] }
        else if d.drop (d.length - 4) ≠
            (Config.h256 (Config.h256 (d.take (d.length - 4))).toList).toList.take 4 then
          { s with cmd := 0x04, code := 3, errpos := 0, flag := false, obuf := [] }
        else { s with cmd := 0x04, code := 0, errpos := 0, flag := false, obuf := d.take (d.length - 4) }))

/-- 43_checksum.md section 3 (a): "`base58CheckDecode(base58CheckEncode(b)) == b`", at the level of the block, whatever
the digests are. -/
def Obligations.ChecksumRoundTrip : Prop :=
  ∀ s : State, s.phase = .ready → TablesOk s.tables →
    ∃ t u, exec .b58cenc s = .next t ∧ exec .b58cdec { t with ibuf := t.obuf } = .next u ∧
      u.code = 0 ∧ u.obuf = s.ibuf

/-- 43_checksum.md section 3 (b): B58CDEC "completes if and only if the text is over the alphabet and its decoding is a
valid checksummed payload". -/
def Obligations.ChecksumAcceptsExactly : Prop :=
  ∀ d T s, TablesOk T →
    ((∃ p f, endingB58cdec d T s = .complete p f) ↔ overAlphabet T s ∧ validPayload d (dec T s) = true)

/-- 43_checksum.md section 3 (c), in its exact form: with one bit of the decoded form of a B58CENC result flipped,
B58CDEC fails with `E_CS_MISMATCH` unless what results is itself a valid checksummed payload. -/
def Obligations.ChecksumRejectsFlippedBit : Prop :=
  ∀ d T b k j, TablesOk T → k < b.length + 4 → j < 8 →
    flipBit (b ++ cs4 d b) k j ≠ b ++ cs4 d b ∧
    endingB58cdec d T (enc T.alphabet (flipBit (b ++ cs4 d b) k j)) =
      if validPayload d (flipBit (b ++ cs4 d b) k j) = true
      then .complete ((flipBit (b ++ cs4 d b) k j).take b.length) false
      else .raise .csMismatch 0

/-! ### The byte utilities -/

/-- 44_byteops.md R190: REV reverses `IBUF` in place, by its loop of exchanges, and copies it to `OBUF`; a second REV
restores the operand, and "`REV` is the only command that writes an operand register". -/
def Obligations.RevReverses : Prop :=
  ∀ s : State, s.phase = .ready →
    exec .rev s = .next
      { s with cmd := 0x09, code := 0, errpos := 0, flag := false, ibuf := s.ibuf.reverse, obuf := s.ibuf.reverse } ∧
    (∃ t u, exec .rev s = .next t ∧ exec .rev t = .next u ∧ u.ibuf = s.ibuf ∧ u.obuf = s.ibuf) ∧
    ∀ i, i ≠ .rev → ∃ t, exec i s = .next t ∧
      t.ibuf = s.ibuf ∧ t.off = s.off ∧ t.len = s.len ∧ t.opa = s.opa ∧ t.opb = s.opb

/-- 44_byteops.md section 2: HEXENC completes with two lowercase hexadecimal characters for each byte, the high four bits
first, and changes nothing else. The ASCII codes of the digits and the order of the two characters are the spec's general
knowledge (log 12), the letter case its decision. -/
def Obligations.HexencCompletes : Prop :=
  ((hexDigits .lowercase).toList = (List.range 10).map (fun d => BitVec.ofNat 8 (0x30 + d)) ++
    (List.range 6).map (fun d => BitVec.ofNat 8 (0x61 + d))) ∧
  ((hexDigits .uppercase).toList = (List.range 10).map (fun d => BitVec.ofNat 8 (0x30 + d)) ++
    (List.range 6).map (fun d => BitVec.ofNat 8 (0x41 + d))) ∧
  ∀ s : State, s.phase = .ready →
    ∃ out, exec .hexenc s = .next { s with cmd := 0x07, code := 0, errpos := 0, flag := false, obuf := out } ∧
      out.length = 2 * s.ibuf.length ∧
      ∀ k v, s.ibuf[k]? = some v →
        (∃ c, out[2 * k]? = some c ∧
          c.toNat = if v.toNat / 16 < 10 then 0x30 + v.toNat / 16 else 0x61 + (v.toNat / 16 - 10)) ∧
        (∃ c, out[2 * k + 1]? = some c ∧
          c.toNat = if v.toNat % 16 < 10 then 0x30 + v.toNat % 16 else 0x61 + (v.toNat % 16 - 10))

/-- 44_byteops.md section 2: HEXDEC fails with `E_HEX_LEN` on an odd length, then with `E_HEX_DIGIT` at the leftmost character
that is no hexadecimal digit, and otherwise completes with one byte for each two characters; nothing else changes. The
digits are those of the rule's table, in which the codes of the characters and the high four bits first are the spec's
general knowledge (log 12). That with `HEXDEC_BOTH` false the capital letters are no digits is DEDUCED (log 11). -/
def Obligations.HexdecOutcomes : Prop :=
  (∀ (both : Bool) (c : Byte) (v : Nat), hexval both c = some v ↔
    (0x30 ≤ c.toNat ∧ c.toNat ≤ 0x39 ∧ v = c.toNat - 0x30) ∨
    (0x61 ≤ c.toNat ∧ c.toNat ≤ 0x66 ∧ v = c.toNat - 0x61 + 10) ∨
    (both = true ∧ 0x41 ≤ c.toNat ∧ c.toNat ≤ 0x46 ∧ v = c.toNat - 0x41 + 10)) ∧
  ∀ s : State, s.phase = .ready →
    (s.ibuf.length % 2 = 1 →
      exec .hexdec s = .next { s with cmd := 0x08, code := 4, errpos := 0, flag := false, obuf := [] }) ∧
    (s.ibuf.length % 2 = 0 → ∀ k, leftmostAt (fun c => hexval true c = none) s.ibuf k →
      exec .hexdec s = .next { s with cmd := 0x08, code := 5, errpos := k, flag := false, obuf := [] }) ∧
    (s.ibuf.length % 2 = 0 → (∀ c ∈ s.ibuf, hexval true c ≠ none) →
      ∃ out, exec .hexdec s = .next { s with cmd := 0x08, code := 0, errpos := 0, flag := false, obuf := out } ∧
        out.length = s.ibuf.length / 2 ∧
        ∀ j hi lo x y, s.ibuf[2 * j]? = some hi → s.ibuf[2 * j + 1]? = some lo →
          hexval true hi = some x → hexval true lo = some y →
          ∃ v, out[j]? = some v ∧ v.toNat = 16 * x + y)

/-- 44_byteops.md section 4 (a): "`hexDecode(hexEncode(b)) == b` for all `b`", for either letter case of the output, and
at the level of the block. -/
def Obligations.HexRoundTrip : Prop :=
  (∀ c b, endingHexdec true (hexText c b) = .complete b false) ∧
  ∀ s : State, s.phase = .ready →
    ∃ t u, exec .hexenc s = .next t ∧ exec .hexdec { t with ibuf := t.obuf } = .next u ∧
      u.code = 0 ∧ u.obuf = s.ibuf

/-- Inference of 44_byteops.md section 4 (e): HEXENC of a HEXDEC result gives back the text with every digit written in
the output's letter case. -/
def Obligations.HexencOfHexdec : Prop :=
  ∀ (c : HexCase) (s : List Byte), s.length % 2 = 0 → (∀ x ∈ s, hexval true x ≠ none) →
    (hexText c (hexBytes true s)).length = s.length ∧
    (∀ (k : Nat) (x : Byte), s[k]? = some x → ∃ y : Byte, (hexText c (hexBytes true s))[k]? = some y ∧
      hexval true y = hexval true x ∧ y ∈ (hexDigits c).toList) ∧
    ((∀ x ∈ s, x ∈ (hexDigits c).toList) → hexText c (hexBytes true s) = s)

/-- 44_byteops.md R193: ULT64 sets `FLAG` exactly when `OPA` is below `OPB` as unsigned integers, by the document's
signed algorithm, empties `OBUF`, and changes nothing else. -/
def Obligations.Ult64Completes : Prop :=
  ∀ s : State, s.phase = .ready →
    exec .ult64 s = .next
      { s with cmd := 0x0A, code := 0, errpos := 0, obuf := [], flag := decide (s.opa.toNat < s.opb.toNat) } ∧
    decide (s.opa.toNat < s.opb.toNat) =
      xor (decide (s.opa.toInt < s.opb.toInt)) (decide (s.opa.toInt < 0) != decide (s.opb.toInt < 0))

/-- Inference of 44_byteops.md section 4 (d): the comparison of ULT64 is a strict total order. -/
def Obligations.Ult64StrictOrder : Prop :=
  (∀ a, lessUnsigned a a = false) ∧
  (∀ a b c, lessUnsigned a b = true → lessUnsigned b c = true → lessUnsigned a c = true) ∧
  (∀ a b, a ≠ b → lessUnsigned a b = !lessUnsigned b a)

/-! ### The machine -/

/-- A step runs the decoded instruction (20_memory.md section 6, 30_encoding.md section 6): when the host's next
operation writes a command word that decodes to `i`, the step is that of `i` with the operation taken off. -/
def Obligations.StepRunsDecodedInstruction : Prop :=
  ∀ (s : State) (w : Byte) (rest : List HostOp) (i : Instr),
    s.pending = .writeReg .cmd w.toNat :: rest → decode w = .ok i →
    step s = exec i { s with pending := rest }

/-- 30_encoding.md R94: a reserved word written to `CMD` while READY "is stored in `CMD`, runs no operation, and fails
with `E_ILLEGAL`", leaving every operand register unchanged. -/
def Obligations.ReservedWordFails : Prop :=
  ∀ (s : State) (w : Byte) (rest : List HostOp), s.phase = .ready →
    s.pending = .writeReg .cmd w.toNat :: rest →
    (16 ≤ w.toNat ∨ w.toNat ∈ [0x0, 0xC, 0xD, 0xE, 0xF]) →
    step s = .next { s with pending := rest, cmd := w, code := 7, errpos := 0, obuf := [], flag := false }

/-- 60_exceptions.md R224, the error entry: what `raise E(pos)` writes, and, whatever the command word, when the outcome
is an error it is that entry for an error the word can end in, with `CMD` holding the word, a position only for the two
character errors, and nothing else changed. -/
def Obligations.ErrorEntry : Prop :=
  (∀ (s : State) (e : ErrorKind) (pos : Nat),
    s.raise e pos = { s with code := errorCode e, errpos := pos, obuf := [], flag := false }) ∧
  ∀ (w : Byte) (s : State), s.phase = .ready →
    ∃ t, hostCommand w s = .next t ∧
      (t.code ≠ 0 → ∃ e ∈ possibleErrors w, ∃ pos, t = State.raise { s with cmd := w } e pos ∧
        (e ≠ .b58Char → e ≠ .hexDigit → pos = 0))

/-- 60_exceptions.md section 7 and 10_state.md section 5: in `FATAL` every write of `CMD` is discarded with no effect on
any register, of the eleven commands and of the reserved words, and `STATUS` reads `0x80` as no command has run. That
the discard is a next state of the model is DEDUCED (log 4). -/
def Obligations.FatalDiscardsCommands : Prop :=
  ∀ s : State, s.phase = .fatal →
    (∀ i, exec i s = .next s) ∧
    (∀ (w : Byte) (rest : List HostOp), s.pending = .writeReg .cmd w.toNat :: rest →
      step s = .next { s with pending := rest }) ∧
    (s.Inv → s.status = 0x80)

/-- 10_state.md section 5 and 60_exceptions.md section 7: no host operation but a reset leaves `FATAL` or changes a result
register there, and none but a reset changes the lifecycle state; with the digests of this hardware present, `FATAL` is
never entered. -/
def Obligations.PhaseChangesAtResetOnly : Prop :=
  ∀ (s t : State) (op : HostOp) (rest : List HostOp), s.pending = op :: rest → step s = .next t →
    (op ≠ .reset → t.phase = s.phase) ∧
    (s.phase = .ready → t.phase = .ready) ∧
    (op ≠ .reset → s.phase = .fatal →
      t.cmd = s.cmd ∧ t.code = s.code ∧ t.errpos = s.errpos ∧ t.obuf = s.obuf ∧ t.flag = s.flag)

/-- 10_state.md R30: the fields of `STATUS`. For every state: bit 7 is 1 exactly in `FATAL`, bits 6:4 read 0, bits 3:0
are `CODE`. The numbers of the error codes are those of 60_exceptions.md section 2. -/
def Obligations.StatusLayout : Prop :=
  (∀ s : State, s.status.toNat / 128 = (if s.phase = .fatal then 1 else 0) ∧
    s.status.toNat / 16 % 8 = 0 ∧ s.status.toNat % 16 = s.code.toNat) ∧
  [ErrorKind.b58Char, .csShort, .csMismatch, .hexLen, .hexDigit, .window, .illegal].map errorCode =
    [1, 2, 3, 4, 5, 6, 7]

/-- Every step keeps the block's invariant: the tables stay inverse to each other, lengths and positions stay within
`MAXLEN`, the outcome code is one that the word in `CMD` can end in (so codes 8 to 15 never occur), a failure shows no
part of a result, `FLAG` is set by ULT64 only, results keep to `OCAP`, and in `FATAL` no result is ever shown. -/
def Obligations.StepKeepsInv : Prop :=
  ∀ s t : State, s.Inv → step s = .next t → t.Inv

/-- 60_exceptions.md section 10, an inference of the spec: for every READY state and every command word the write of `CMD`
is defined and ends; that it is a next state in `FATAL` too, where 30_encoding.md section 6 discards it, is DEDUCED
(log 4). And 30_encoding.md section 6: it never changes `OFF`, `LEN`, `OPA`, `OPB`, `ILEN`, the tables or
`PHASE`, changes `IBUF` in REV only, and asks nothing of the host. -/
def Obligations.CommandsKeepOperands : Prop :=
  ∀ (w : Byte) (s : State), ∃ t, hostCommand w s = .next t ∧
    t.tables = s.tables ∧ t.phase = s.phase ∧ t.off = s.off ∧ t.len = s.len ∧ t.opa = s.opa ∧ t.opb = s.opb ∧
    t.ilen = s.ilen ∧ t.pending = s.pending ∧ t.reply = s.reply ∧ (decode w ≠ .ok .rev → t.ibuf = s.ibuf)

/-- 10_state.md R36: the values a command leaves in `STATUS.CODE`, `ERRPOS`, `OBUF`, `OLEN`, `FLAG` and, for REV, `IBUF`
are a function of `CMD`, the operand registers that command reads and the configuration; no earlier command, no earlier
result and no other register influences them. -/
def Obligations.CommandsAreStateless : Prop :=
  ∀ (w : Byte) (s s' : State), s.phase = .ready → s'.phase = .ready → readsAgree w s s' →
    ∃ t t', hostCommand w s = .next t ∧ hostCommand w s' = .next t' ∧
      t.code = t'.code ∧ t.errpos = t'.errpos ∧ t.obuf = t'.obuf ∧ t.olen = t'.olen ∧ t.flag = t'.flag ∧
      (w = 0x09 → t.ibuf = t'.ibuf)

/-- Inference of 20_memory.md section 3: a second write of the same word with unchanged operands changes nothing, for
every word but REV's, and a second REV undoes the first. It is stated for `FATAL` too, where the discarded write is a next
state (DEDUCED, log 4). -/
def Obligations.CommandTwice : Prop :=
  ∀ (w : Byte) (s : State), ∃ t, hostCommand w s = .next t ∧
    (w ≠ 0x09 → hostCommand w t = .next t) ∧
    (w = 0x09 → ∃ u, hostCommand w t = .next u ∧ u.ibuf = s.ibuf)

/-- 30_encoding.md section 6, the transaction view: loading the operands, writing `CMD` once and reading the results is
the pure function `call` of the configuration and the arguments, whatever the registers held before. The data must fit
`IBUF` (log 7). -/
def Obligations.TransactionIsCall : Prop :=
  ∀ (s : State) (w : Byte) (data : List Byte) (off len : Word32) (a b : Word64) (rest : List HostOp),
    s.phase = .ready → s.tables = tablesValue → Config.fits Config.maxLen data.length = true →
    s.pending = callScript w data off len a b ++ rest →
    ∃ t, runSteps 6 s = .next t ∧ t.pending = rest ∧
      resultRegisters t = call callConfigValue w data off.toNat len.toNat a b ∧
      (call callConfigValue w data off.toNat len.toNat a b).data = if w = 0x09 then data.reverse else data

/-- 20_memory.md section 5, the host operations: a load replaces the operand when it fits and is refused when it does
not, a write sets its register when the value is in range and is refused when it is not, and a read returns its value
and changes nothing of the block (20_memory.md section 3). What each register reads as is written out; a reserved one
reads 0. The reply is the model's own (log 2), the refusals are DEDUCED (logs 7, 14 and 15). -/
def Obligations.HostOperations : Prop :=
  (∀ (s : State) (rest : List HostOp) (v : List Byte), s.pending = .load v :: rest →
    step s = if Config.fits Config.maxLen v.length = true then .next { s with pending := rest, ibuf := v }
             else .refused .operandTooLong) ∧
  (∀ (s : State) (rest : List HostOp) (v : Nat), s.pending = .writeReg .off v :: rest →
    step s = if v < 2 ^ 32 then .next { s with pending := rest, off := BitVec.ofNat 32 v }
             else .refused .valueOutOfRange) ∧
  (∀ (s : State) (rest : List HostOp) (v : Nat), s.pending = .writeReg .len v :: rest →
    step s = if v < 2 ^ 32 then .next { s with pending := rest, len := BitVec.ofNat 32 v }
             else .refused .valueOutOfRange) ∧
  (∀ (s : State) (rest : List HostOp) (v : Nat), s.pending = .writeReg .opa v :: rest →
    step s = if v < 2 ^ 64 then .next { s with pending := rest, opa := BitVec.ofNat 64 v }
             else .refused .valueOutOfRange) ∧
  (∀ (s : State) (rest : List HostOp) (v : Nat), s.pending = .writeReg .opb v :: rest →
    step s = if v < 2 ^ 64 then .next { s with pending := rest, opb := BitVec.ofNat 64 v }
             else .refused .valueOutOfRange) ∧
  (∀ (s : State) (rest : List HostOp) (v : Nat), s.pending = .writeReg .cmd v :: rest →
    step s = if v < 2 ^ 8 then hostCommand (BitVec.ofNat 8 v) { s with pending := rest }
             else .refused .valueOutOfRange) ∧
  (∀ (s : State) (rest : List HostOp), s.pending = .readBuffer .ibuf :: rest →
    step s = .next { s with pending := rest, reply := some (.elements s.ibuf) }) ∧
  (∀ (s : State) (rest : List HostOp), s.pending = .readBuffer .obuf :: rest →
    step s = .next { s with pending := rest, reply := some (.elements s.obuf) }) ∧
  (∀ (s : State) (rest : List HostOp) (r : Reg), s.pending = .readReg r :: rest →
    step s = .next
      { s with
        pending := rest
        reply := some (.value
          (match r with
            | .cmd => s.cmd.toNat
            | .status => (if s.phase = .fatal then 128 else 0) + s.code.toNat
            | .ilen => s.ibuf.length
            | .olen => s.obuf.length
            | .off => s.off.toNat
            | .len => s.len.toNat
            | .opa => s.opa.toNat
            | .opb => s.opb.toNat
            | .flag => if s.flag = true then 1 else 0
            | .errpos => s.errpos
            | .reserved _ => 0)) }) ∧
  (∀ (s : State) (rest : List HostOp) (i : Nat), s.pending = .readElement .ibuf i :: rest →
    step s = match s.ibuf[i]? with
      | some v => .next { s with pending := rest, reply := some (.value v.toNat) }
      | none => .refused .readBeyondLength) ∧
  (∀ (s : State) (rest : List HostOp) (i : Nat), s.pending = .readElement .obuf i :: rest →
    step s = match s.obuf[i]? with
      | some v => .next { s with pending := rest, reply := some (.value v.toNat) }
      | none => .refused .readBeyondLength)

/-- 20_memory.md section 5: "There is no host operation that writes `OBUF`, `OLEN`, `FLAG`, `ERRPOS`, `STATUS`, the
tables or `PHASE`": only a write of `CMD` and a reset change them, and the tables not even a command. -/
def Obligations.HostWritesNoResult : Prop :=
  ∀ (s t : State) (op : HostOp) (rest : List HostOp), s.pending = op :: rest → op ≠ .reset →
    (∀ v, op ≠ .writeReg .cmd v) → step s = .next t →
    t.obuf = s.obuf ∧ t.olen = s.olen ∧ t.flag = s.flag ∧ t.errpos = s.errpos ∧ t.status = s.status ∧
      t.tables = s.tables ∧ t.phase = s.phase ∧ t.cmd = s.cmd

/-- 30_encoding.md section 5: the script's `LDO <lead> ++` makes the last result, with the host's bytes in front, the next
operand, when it fits. -/
def Obligations.LdoLoadsResult : Prop :=
  ∀ (s : State) (lead : List Byte) (rest : List HostOp), s.pending = expandLine (.ldo lead) ++ rest →
    runSteps 2 s =
      if Config.fits Config.maxLen (lead.length + s.obuf.length) = true then
        .next { s with pending := rest, ibuf := lead ++ s.obuf, reply := some (.elements s.obuf) }
      else .refused .operandTooLong

/-- 70_reset_and_hazards.md section 5: with no host operation left the run has ended; the core has no step of its own,
in any state. That this is a fault of the model is DEDUCED (log 3). -/
def Obligations.RunEndsWithHostOperations : Prop :=
  ∀ s : State, step s = .fault .runEnded ↔ s.pending = []

/-- Inference of 20_memory.md section 7: the length of each command's result, in terms of the operand's length. -/
def Obligations.ResultCapacity : Prop :=
  ∀ (c : CallConfig) (i : Instr) (data : List Byte) (off len : Nat) (a b : Word64) (out : List Byte) (f : Bool),
    callEnding c i data off len a b = .complete out f →
    match i with
    | .b58enc => out.length ≤ 2 * data.length
    | .b58cenc => out.length ≤ 2 * data.length + 8
    | .b58dec => out.length ≤ data.length
    | .b58cdec => out.length + 4 ≤ data.length
    | .hexenc => out.length = 2 * data.length
    | .hexdec => 2 * out.length = data.length
    | .rev => out.length = data.length
    | .dhash => out.length = 32
    | .dhashw => out.length = 32
    | .idhash => out.length = 20
    | .ult64 => out = []

/-- Inference of 20_memory.md section 7 and 00_scope.md section 4, `OCAP = 2*MAXLEN + 8`, "which no command can exceed":
for an operand within `MAXLEN` every command whose result is no digest keeps to `OCAP`, whatever `MAXLEN` is; every command
does if `OCAP` holds a digest, which is to say if `MAXLEN` is unbounded or 12 or more. In the machine no command ever
exceeds `OCAP`, whatever the registers held before. That a smaller `MAXLEN`, for which DHASH's 32 elements exceed
`2*MAXLEN + 8`, is no configuration is DEDUCED (log 8). -/
def Obligations.ResultsFitOcap : Prop :=
  (∀ cap, Config.holdsDigest cap = true ↔ ∀ m, cap = some m → 12 ≤ m) ∧
  (∀ (cap : Option Nat) (c : CallConfig) (i : Instr) (data : List Byte) (off len : Nat) (a b : Word64)
      (out : List Byte) (f : Bool),
    Config.fits cap data.length = true → callEnding c i data off len a b = .complete out f →
    (digestLength i = none ∨ Config.holdsDigest cap = true → Config.fits (Config.ocap cap) out.length = true) ∧
    (∀ n, digestLength i = some n → out.length = n)) ∧
  Config.holdsDigest Config.maxLen = true ∧
  (∀ (w : Byte) (s t : State), s.phase = .ready → Config.fits Config.maxLen s.ilen = true →
    hostCommand w s = .next t → Config.fits (Config.ocap Config.maxLen) t.olen = true) ∧
  (∀ (m : Nat) (c : CallConfig) (data : List Byte) (off len : Nat) (a b : Word64), m < 12 →
    ∃ out f, callEnding c .dhash data off len a b = .complete out f ∧
      Config.fits (Config.ocap (some m)) out.length = false)

end
end

