-- ==== Sys2Proof/Laws/State.lean ====
section
/-! SUPPORT. One lemma per field per update of State, each true by unfolding the update once. -/

namespace Sys2Proof.Machine

@[simp] theorem State.setCmd_tables (s : State) (w : Byte) : (s.setCmd w).tables = s.tables := rfl
@[simp] theorem State.setCmd_phase (s : State) (w : Byte) : (s.setCmd w).phase = s.phase := rfl
@[simp] theorem State.setCmd_ibuf (s : State) (w : Byte) : (s.setCmd w).ibuf = s.ibuf := rfl
@[simp] theorem State.setCmd_off (s : State) (w : Byte) : (s.setCmd w).off = s.off := rfl
@[simp] theorem State.setCmd_len (s : State) (w : Byte) : (s.setCmd w).len = s.len := rfl
@[simp] theorem State.setCmd_opa (s : State) (w : Byte) : (s.setCmd w).opa = s.opa := rfl
@[simp] theorem State.setCmd_opb (s : State) (w : Byte) : (s.setCmd w).opb = s.opb := rfl
@[simp] theorem State.setCmd_cmd (s : State) (w : Byte) : (s.setCmd w).cmd = w := rfl
@[simp] theorem State.setCmd_code (s : State) (w : Byte) : (s.setCmd w).code = s.code := rfl
@[simp] theorem State.setCmd_errpos (s : State) (w : Byte) : (s.setCmd w).errpos = s.errpos := rfl
@[simp] theorem State.setCmd_obuf (s : State) (w : Byte) : (s.setCmd w).obuf = s.obuf := rfl
@[simp] theorem State.setCmd_flag (s : State) (w : Byte) : (s.setCmd w).flag = s.flag := rfl
@[simp] theorem State.setCmd_pending (s : State) (w : Byte) : (s.setCmd w).pending = s.pending := rfl
@[simp] theorem State.setCmd_reply (s : State) (w : Byte) : (s.setCmd w).reply = s.reply := rfl

@[simp] theorem State.setIbuf_tables (s : State) (v : List Byte) : (s.setIbuf v).tables = s.tables := rfl
@[simp] theorem State.setIbuf_phase (s : State) (v : List Byte) : (s.setIbuf v).phase = s.phase := rfl
@[simp] theorem State.setIbuf_ibuf (s : State) (v : List Byte) : (s.setIbuf v).ibuf = v := rfl
@[simp] theorem State.setIbuf_off (s : State) (v : List Byte) : (s.setIbuf v).off = s.off := rfl
@[simp] theorem State.setIbuf_len (s : State) (v : List Byte) : (s.setIbuf v).len = s.len := rfl
@[simp] theorem State.setIbuf_opa (s : State) (v : List Byte) : (s.setIbuf v).opa = s.opa := rfl
@[simp] theorem State.setIbuf_opb (s : State) (v : List Byte) : (s.setIbuf v).opb = s.opb := rfl
@[simp] theorem State.setIbuf_cmd (s : State) (v : List Byte) : (s.setIbuf v).cmd = s.cmd := rfl
@[simp] theorem State.setIbuf_code (s : State) (v : List Byte) : (s.setIbuf v).code = s.code := rfl
@[simp] theorem State.setIbuf_errpos (s : State) (v : List Byte) : (s.setIbuf v).errpos = s.errpos := rfl
@[simp] theorem State.setIbuf_obuf (s : State) (v : List Byte) : (s.setIbuf v).obuf = s.obuf := rfl
@[simp] theorem State.setIbuf_flag (s : State) (v : List Byte) : (s.setIbuf v).flag = s.flag := rfl
@[simp] theorem State.setIbuf_pending (s : State) (v : List Byte) : (s.setIbuf v).pending = s.pending := rfl
@[simp] theorem State.setIbuf_reply (s : State) (v : List Byte) : (s.setIbuf v).reply = s.reply := rfl

@[simp] theorem State.setPending_tables (s : State) (ops : List HostOp) : (s.setPending ops).tables = s.tables := rfl
@[simp] theorem State.setPending_phase (s : State) (ops : List HostOp) : (s.setPending ops).phase = s.phase := rfl
@[simp] theorem State.setPending_ibuf (s : State) (ops : List HostOp) : (s.setPending ops).ibuf = s.ibuf := rfl
@[simp] theorem State.setPending_off (s : State) (ops : List HostOp) : (s.setPending ops).off = s.off := rfl
@[simp] theorem State.setPending_len (s : State) (ops : List HostOp) : (s.setPending ops).len = s.len := rfl
@[simp] theorem State.setPending_opa (s : State) (ops : List HostOp) : (s.setPending ops).opa = s.opa := rfl
@[simp] theorem State.setPending_opb (s : State) (ops : List HostOp) : (s.setPending ops).opb = s.opb := rfl
@[simp] theorem State.setPending_cmd (s : State) (ops : List HostOp) : (s.setPending ops).cmd = s.cmd := rfl
@[simp] theorem State.setPending_code (s : State) (ops : List HostOp) : (s.setPending ops).code = s.code := rfl
@[simp] theorem State.setPending_errpos (s : State) (ops : List HostOp) : (s.setPending ops).errpos = s.errpos := rfl
@[simp] theorem State.setPending_obuf (s : State) (ops : List HostOp) : (s.setPending ops).obuf = s.obuf := rfl
@[simp] theorem State.setPending_flag (s : State) (ops : List HostOp) : (s.setPending ops).flag = s.flag := rfl
@[simp] theorem State.setPending_pending (s : State) (ops : List HostOp) : (s.setPending ops).pending = ops := rfl
@[simp] theorem State.setPending_reply (s : State) (ops : List HostOp) : (s.setPending ops).reply = s.reply := rfl

@[simp] theorem State.setReply_tables (s : State) (r : Reply) : (s.setReply r).tables = s.tables := rfl
@[simp] theorem State.setReply_phase (s : State) (r : Reply) : (s.setReply r).phase = s.phase := rfl
@[simp] theorem State.setReply_ibuf (s : State) (r : Reply) : (s.setReply r).ibuf = s.ibuf := rfl
@[simp] theorem State.setReply_off (s : State) (r : Reply) : (s.setReply r).off = s.off := rfl
@[simp] theorem State.setReply_len (s : State) (r : Reply) : (s.setReply r).len = s.len := rfl
@[simp] theorem State.setReply_opa (s : State) (r : Reply) : (s.setReply r).opa = s.opa := rfl
@[simp] theorem State.setReply_opb (s : State) (r : Reply) : (s.setReply r).opb = s.opb := rfl
@[simp] theorem State.setReply_cmd (s : State) (r : Reply) : (s.setReply r).cmd = s.cmd := rfl
@[simp] theorem State.setReply_code (s : State) (r : Reply) : (s.setReply r).code = s.code := rfl
@[simp] theorem State.setReply_errpos (s : State) (r : Reply) : (s.setReply r).errpos = s.errpos := rfl
@[simp] theorem State.setReply_obuf (s : State) (r : Reply) : (s.setReply r).obuf = s.obuf := rfl
@[simp] theorem State.setReply_flag (s : State) (r : Reply) : (s.setReply r).flag = s.flag := rfl
@[simp] theorem State.setReply_pending (s : State) (r : Reply) : (s.setReply r).pending = s.pending := rfl
@[simp] theorem State.setReply_reply (s : State) (r : Reply) : (s.setReply r).reply = some r := rfl

@[simp] theorem State.complete_tables (s : State) (out : List Byte) (b : Bool) : (s.complete out b).tables = s.tables := rfl
@[simp] theorem State.complete_phase (s : State) (out : List Byte) (b : Bool) : (s.complete out b).phase = s.phase := rfl
@[simp] theorem State.complete_ibuf (s : State) (out : List Byte) (b : Bool) : (s.complete out b).ibuf = s.ibuf := rfl
@[simp] theorem State.complete_off (s : State) (out : List Byte) (b : Bool) : (s.complete out b).off = s.off := rfl
@[simp] theorem State.complete_len (s : State) (out : List Byte) (b : Bool) : (s.complete out b).len = s.len := rfl
@[simp] theorem State.complete_opa (s : State) (out : List Byte) (b : Bool) : (s.complete out b).opa = s.opa := rfl
@[simp] theorem State.complete_opb (s : State) (out : List Byte) (b : Bool) : (s.complete out b).opb = s.opb := rfl
@[simp] theorem State.complete_cmd (s : State) (out : List Byte) (b : Bool) : (s.complete out b).cmd = s.cmd := rfl
@[simp] theorem State.complete_code (s : State) (out : List Byte) (b : Bool) : (s.complete out b).code = 0 := rfl
@[simp] theorem State.complete_errpos (s : State) (out : List Byte) (b : Bool) : (s.complete out b).errpos = 0 := rfl
@[simp] theorem State.complete_obuf (s : State) (out : List Byte) (b : Bool) : (s.complete out b).obuf = out := rfl
@[simp] theorem State.complete_flag (s : State) (out : List Byte) (b : Bool) : (s.complete out b).flag = b := rfl
@[simp] theorem State.complete_pending (s : State) (out : List Byte) (b : Bool) : (s.complete out b).pending = s.pending := rfl
@[simp] theorem State.complete_reply (s : State) (out : List Byte) (b : Bool) : (s.complete out b).reply = s.reply := rfl

@[simp] theorem State.raise_tables (s : State) (e : ErrorKind) (pos : Nat) : (s.raise e pos).tables = s.tables := rfl
@[simp] theorem State.raise_phase (s : State) (e : ErrorKind) (pos : Nat) : (s.raise e pos).phase = s.phase := rfl
@[simp] theorem State.raise_ibuf (s : State) (e : ErrorKind) (pos : Nat) : (s.raise e pos).ibuf = s.ibuf := rfl
@[simp] theorem State.raise_off (s : State) (e : ErrorKind) (pos : Nat) : (s.raise e pos).off = s.off := rfl
@[simp] theorem State.raise_len (s : State) (e : ErrorKind) (pos : Nat) : (s.raise e pos).len = s.len := rfl
@[simp] theorem State.raise_opa (s : State) (e : ErrorKind) (pos : Nat) : (s.raise e pos).opa = s.opa := rfl
@[simp] theorem State.raise_opb (s : State) (e : ErrorKind) (pos : Nat) : (s.raise e pos).opb = s.opb := rfl
@[simp] theorem State.raise_cmd (s : State) (e : ErrorKind) (pos : Nat) : (s.raise e pos).cmd = s.cmd := rfl
@[simp] theorem State.raise_code (s : State) (e : ErrorKind) (pos : Nat) : (s.raise e pos).code = errorCode e := rfl
@[simp] theorem State.raise_errpos (s : State) (e : ErrorKind) (pos : Nat) : (s.raise e pos).errpos = pos := rfl
@[simp] theorem State.raise_obuf (s : State) (e : ErrorKind) (pos : Nat) : (s.raise e pos).obuf = [] := rfl
@[simp] theorem State.raise_flag (s : State) (e : ErrorKind) (pos : Nat) : (s.raise e pos).flag = false := rfl
@[simp] theorem State.raise_pending (s : State) (e : ErrorKind) (pos : Nat) : (s.raise e pos).pending = s.pending := rfl
@[simp] theorem State.raise_reply (s : State) (e : ErrorKind) (pos : Nat) : (s.raise e pos).reply = s.reply := rfl

@[simp] theorem State.settle_tables (s : State) (e : Ending) : (s.settle e).tables = s.tables := by cases e <;> rfl
@[simp] theorem State.settle_phase (s : State) (e : Ending) : (s.settle e).phase = s.phase := by cases e <;> rfl
@[simp] theorem State.settle_ibuf (s : State) (e : Ending) : (s.settle e).ibuf = s.ibuf := by cases e <;> rfl
@[simp] theorem State.settle_off (s : State) (e : Ending) : (s.settle e).off = s.off := by cases e <;> rfl
@[simp] theorem State.settle_len (s : State) (e : Ending) : (s.settle e).len = s.len := by cases e <;> rfl
@[simp] theorem State.settle_opa (s : State) (e : Ending) : (s.settle e).opa = s.opa := by cases e <;> rfl
@[simp] theorem State.settle_opb (s : State) (e : Ending) : (s.settle e).opb = s.opb := by cases e <;> rfl
@[simp] theorem State.settle_cmd (s : State) (e : Ending) : (s.settle e).cmd = s.cmd := by cases e <;> rfl
@[simp] theorem State.settle_pending (s : State) (e : Ending) : (s.settle e).pending = s.pending := by cases e <;> rfl
@[simp] theorem State.settle_reply (s : State) (e : Ending) : (s.settle e).reply = s.reply := by cases e <;> rfl

@[simp] theorem State.settle_complete (s : State) (out : List Byte) (b : Bool) :
    s.settle (.complete out b) = s.complete out b := rfl
@[simp] theorem State.settle_raise (s : State) (e : ErrorKind) (pos : Nat) :
    s.settle (.raise e pos) = s.raise e pos := rfl

@[simp] theorem State.afterReset_tables (d : Bool) (p : List HostOp) (r : Option Reply) :
    (State.afterReset d p r).tables = tablesValue := rfl
@[simp] theorem State.afterReset_phase (d : Bool) (p : List HostOp) (r : Option Reply) :
    (State.afterReset d p r).phase = phaseAtReset d := rfl
@[simp] theorem State.afterReset_ibuf (d : Bool) (p : List HostOp) (r : Option Reply) :
    (State.afterReset d p r).ibuf = [] := rfl
@[simp] theorem State.afterReset_off (d : Bool) (p : List HostOp) (r : Option Reply) :
    (State.afterReset d p r).off = 0 := rfl
@[simp] theorem State.afterReset_len (d : Bool) (p : List HostOp) (r : Option Reply) :
    (State.afterReset d p r).len = 0 := rfl
@[simp] theorem State.afterReset_opa (d : Bool) (p : List HostOp) (r : Option Reply) :
    (State.afterReset d p r).opa = 0 := rfl
@[simp] theorem State.afterReset_opb (d : Bool) (p : List HostOp) (r : Option Reply) :
    (State.afterReset d p r).opb = 0 := rfl
@[simp] theorem State.afterReset_cmd (d : Bool) (p : List HostOp) (r : Option Reply) :
    (State.afterReset d p r).cmd = 0x00 := rfl
@[simp] theorem State.afterReset_code (d : Bool) (p : List HostOp) (r : Option Reply) :
    (State.afterReset d p r).code = 0 := rfl
@[simp] theorem State.afterReset_errpos (d : Bool) (p : List HostOp) (r : Option Reply) :
    (State.afterReset d p r).errpos = 0 := rfl
@[simp] theorem State.afterReset_obuf (d : Bool) (p : List HostOp) (r : Option Reply) :
    (State.afterReset d p r).obuf = [] := rfl
@[simp] theorem State.afterReset_flag (d : Bool) (p : List HostOp) (r : Option Reply) :
    (State.afterReset d p r).flag = false := rfl
@[simp] theorem State.afterReset_pending (d : Bool) (p : List HostOp) (r : Option Reply) :
    (State.afterReset d p r).pending = p := rfl
@[simp] theorem State.afterReset_reply (d : Bool) (p : List HostOp) (r : Option Reply) :
    (State.afterReset d p r).reply = r := rfl

end Sys2Proof.Machine
end

