-- ==== Sys2Proof/Laws/Ops.lean ====
section
/-! SUPPORT. One lemma for each shared operation over buffers and registers, saying what it can do. -/

namespace Sys2Proof.Machine

/-! ### Access to a buffer -/

@[simp] theorem memRead_whole (s : List Byte) : memRead s 0 s.length = s := by simp [memRead]

theorem memRead_getElem? (s : List Byte) (i n k : Nat) :
    (memRead s i n)[k]? = if k < n then s[i + k]? else none := by
  simp [memRead, List.getElem?_take]

theorem memRead_length (s : List Byte) (i n : Nat) (h : i + n ≤ s.length) : (memRead s i n).length = n := by
  simp [memRead]; omega

theorem memRead_prefix (s : List Byte) (n : Nat) : memRead s 0 n = s.take n := by simp [memRead]

theorem memRead_suffix (s : List Byte) (n : Nat) : memRead s (s.length - n) n = s.drop (s.length - n) := by
  simp [memRead]; omega

theorem memWrite_length (s v : List Byte) (i : Nat) (h : i + v.length ≤ s.length) :
    (memWrite s i v).length = s.length := by
  simp [memWrite]; omega

theorem memWrite_getElem? (s v : List Byte) (i k : Nat) (h : i + v.length ≤ s.length) :
    (memWrite s i v)[k]? = if i ≤ k ∧ k < i + v.length then v[k - i]? else s[k]? := by
  unfold memWrite
  rcases Nat.lt_or_ge k i with hk | hk
  · rw [List.append_assoc, List.getElem?_append_left (by simp; omega), List.getElem?_take_of_lt hk]
    simp [Nat.not_le.mpr hk]
  · rcases Nat.lt_or_ge k (i + v.length) with hv | hv
    · rw [List.getElem?_append_left (by simp; omega), List.getElem?_append_right (by simp; omega)]
      have hi : min i s.length = i := by omega
      simp [hk, hv, hi]
    · rw [List.getElem?_append_right (by simp; omega)]
      have hm : (List.take i s ++ v).length = i + v.length := by simp; omega
      simp [hm, List.getElem?_drop, Nat.not_lt.mpr hv, Nat.add_sub_cancel' hv]

@[simp] theorem State.wholeOperand_eq (s : State) : s.wholeOperand = s.ibuf := memRead_whole s.ibuf

/-! ### The step of the core -/

theorem runOperation_ready (w : Byte) (f : State → List Byte) (e : State → Ending) (s : State)
    (h : s.phase = .ready) :
    runOperation w f e s = .next (((s.setCmd w).setIbuf (f s)).settle (e s)) := by
  simp [runOperation, h]

theorem runOperation_fatal (w : Byte) (f : State → List Byte) (e : State → Ending) (s : State)
    (h : s.phase = .fatal) : runOperation w f e s = .next s := by
  simp [runOperation, h]

/-- An operation never stops. -/
theorem runOperation_next (w : Byte) (f : State → List Byte) (e : State → Ending) (s : State) :
    ∃ t, runOperation w f e s = .next t := by
  cases h : s.phase
  · exact ⟨_, runOperation_ready w f e s h⟩
  · exact ⟨_, runOperation_fatal w f e s h⟩

/-- Everything an operation can do: a discarded write in `FATAL`, one of the two endings in `READY`. -/
theorem runOperation_cases {w : Byte} {f : State → List Byte} {e : State → Ending} {s t : State}
    (h : runOperation w f e s = .next t) :
    (s.phase = .fatal ∧ t = s) ∨
    (s.phase = .ready ∧ ∃ out b, e s = .complete out b ∧ t = ((s.setCmd w).setIbuf (f s)).complete out b) ∨
    (s.phase = .ready ∧ ∃ k pos, e s = .raise k pos ∧ t = ((s.setCmd w).setIbuf (f s)).raise k pos) := by
  cases hp : s.phase
  · rw [runOperation_ready w f e s hp, Host.Outcome.next.injEq] at h
    subst h
    cases he : e s with
    | complete out b => exact .inr (.inl ⟨rfl, out, b, rfl, rfl⟩)
    | raise k pos => exact .inr (.inr ⟨rfl, k, pos, rfl, rfl⟩)
  · rw [runOperation_fatal w f e s hp, Host.Outcome.next.injEq] at h
    exact .inl ⟨rfl, h.symm⟩

/-! ### The host operations -/

theorem step_idle (s : State) (h : s.pending = []) : step s = .fault .runEnded := by
  simp [step, takeOperation, h]

theorem step_pending (s : State) (op : HostOp) (rest : List HostOp) (h : s.pending = op :: rest) :
    step s = hostOperation op (s.setPending rest) := by
  simp [step, takeOperation, h]

@[simp] theorem runSteps_zero (s : State) : runSteps 0 s = .next s := rfl

theorem runSteps_next (k : Nat) (s t : State) (h : step s = .next t) : runSteps (k + 1) s = runSteps k t := by
  simp [runSteps, h]

theorem runSteps_one (s : State) : runSteps 1 s = step s := by
  rw [runSteps]
  cases step s <;> rfl

theorem hostLoad_fits (cap : Option Nat) (v : List Byte) (s : State) (h : Config.fits cap v.length = true) :
    hostLoad cap v s = .next (s.setIbuf v) := by
  simp [hostLoad, h]

theorem hostLoad_tooLong (cap : Option Nat) (v : List Byte) (s : State) (h : Config.fits cap v.length = false) :
    hostLoad cap v s = .refused .operandTooLong := by
  simp [hostLoad, h]

@[simp] theorem Config.fits_zero (cap : Option Nat) : Config.fits cap 0 = true := by
  cases cap <;> simp [Config.fits]

theorem Config.fits_mono {cap : Option Nat} {m n : Nat} (h : Config.fits cap n = true) (hmn : m ≤ n) :
    Config.fits cap m = true := by
  cases cap <;> simp_all [Config.fits]; omega

@[simp] theorem bufferContents_ibuf (s : State) : bufferContents .ibuf s = s.ibuf := memRead_whole s.ibuf

@[simp] theorem bufferContents_obuf (s : State) : bufferContents .obuf s = s.obuf := memRead_whole s.obuf

end Sys2Proof.Machine
end

