-- ==== Sys2Proof/Laws/Sequences.lean ====
section
/-! SUPPORT. One lemma for each shared function on sequences and numbers: values, digits, leading counts, the scan of a
text, the hexadecimal digits. -/

namespace Sys2Proof.Machine

/-! ### Values of byte sequences -/

@[simp] theorem be_nil : be [] = 0 := rfl

theorem be_append (s : List Byte) (b : Byte) : be (s ++ [b]) = 256 * be s + b.toNat := by
  simp [be, List.foldl_append]

/-! ### Digits -/

/-- Fuel at least the number itself is enough, and more of it changes nothing. -/
theorem digitsUpTo_fuel (base : Nat) [NeZero base] (hb : 2 ≤ base) :
    ∀ (f g n : Nat), n ≤ f → n ≤ g → digitsUpTo base f n = digitsUpTo base g n := by
  intro f
  induction f with
  | zero =>
    intro g n hf _
    obtain rfl : n = 0 := by omega
    cases g <;> simp [digitsUpTo]
  | succ f ih =>
    intro g n hf hg
    rcases Nat.eq_zero_or_pos n with rfl | hn
    · cases g <;> simp [digitsUpTo]
    · obtain ⟨g, rfl⟩ : ∃ g', g = g' + 1 := ⟨g - 1, by omega⟩
      have hlt : n / base < n := Nat.div_lt_self hn hb
      simp only [digitsUpTo, Nat.ne_of_gt hn, if_false]
      rw [ih g (n / base) (by omega) (by omega)]

@[simp] theorem digits_zero (base : Nat) [NeZero base] : digits base 0 = [] := rfl

/-- The last digit is the remainder, and the digits before it are those of the quotient. -/
theorem digits_pos (base : Nat) [NeZero base] (hb : 2 ≤ base) (n : Nat) (hn : 0 < n) :
    digits base n = digits base (n / base) ++ [Fin.ofNat base n] := by
  obtain ⟨m, rfl⟩ : ∃ m, n = m + 1 := ⟨n - 1, by omega⟩
  have hlt : (m + 1) / base < m + 1 := Nat.div_lt_self hn hb
  unfold digits
  rw [digitsUpTo, if_neg (by omega), List.reverse_cons,
    digitsUpTo_fuel base hb m ((m + 1) / base) _ (by omega) (Nat.le_refl _)]

/-! ### Leading elements -/

theorem leading_le (c : Byte) (s : List Byte) : leading c s ≤ s.length :=
  (List.takeWhile_prefix _).length_le

theorem take_leading (c : Byte) (s : List Byte) : s.take (leading c s) = List.replicate (leading c s) c := by
  rw [leading, ← List.prefix_iff_eq_take.mp (List.takeWhile_prefix _)]
  exact List.eq_replicate_iff.mpr ⟨rfl, fun b hb => by simpa using List.mem_takeWhile_imp hb⟩

theorem drop_leading (c : Byte) (s : List Byte) : s.drop (leading c s) = s.dropWhile (fun x => x == c) := by
  induction s with
  | nil => rfl
  | cons y s ih =>
    by_cases hy : y = c
    · simpa [leading, hy] using ih
    · simp [leading, hy]

/-- The element after the leading ones differs from them. -/
theorem getElem?_leading_ne (c : Byte) (s : List Byte) (x : Byte) (h : s[leading c s]? = some x) : x ≠ c := by
  induction s with
  | nil => simp at h
  | cons y s ih =>
    by_cases hy : y = c
    · subst hy
      simp only [leading, List.takeWhile_cons, beq_self_eq_true, if_true, List.length_cons] at h ih
      exact ih (by simpa using h)
    · have : (y == c) = false := by simpa using hy
      simp only [leading, List.takeWhile_cons, this] at h
      simp at h
      exact h ▸ hy

/-- A sequence with `k` copies of `c` in front and no `c` after them has `k` leading `c`. -/
theorem leading_replicate_append (c : Byte) (k : Nat) (t : List Byte) (h : ∀ x, t[0]? = some x → x ≠ c) :
    leading c (List.replicate k c ++ t) = k := by
  induction k with
  | zero =>
    cases t with
    | nil => rfl
    | cons y t =>
      have hy : (y == c) = false := by simpa using h y rfl
      simp [leading, hy]
  | succ k ih => simpa only [leading, List.replicate_succ, List.cons_append, List.takeWhile_cons, beq_self_eq_true,
      if_true, List.length_cons, Nat.add_right_cancel_iff] using ih

/-! ### The tables -/

/-- An entry of the derived table is the index of its character code. -/
theorem lookup_buildIndexes (alphabet : Vector Byte Config.base) (c : Byte) :
    lookup ⟨alphabet, buildIndexes alphabet⟩ c = indexOf alphabet c := by
  unfold lookup buildIndexes Vector.get
  simp only [Fin.val_cast, List.getElem_toArray, List.getElem_map, List.getElem_finRange]
  exact congrArg _ (BitVec.eq_of_toNat_eq (by simp))

/-! ### The scan of a text -/

/-- A text without an offending character scans to its value. -/
theorem scanDigits_ok (t : Tables) (s : List Byte) (h : ∀ c ∈ s, lookup t c ≠ none) (k n : Nat) :
    scanDigits t k n s =
      .ok (s.foldl (fun n c => Config.base * n + ((lookup t c).map Fin.val).getD 0) n) := by
  induction s generalizing k n with
  | nil => rfl
  | cons c s ih =>
    obtain ⟨d, hd⟩ := Option.ne_none_iff_exists'.mp (h c (by simp))
    simp only [scanDigits, hd, List.foldl_cons, Option.map_some, Option.getD_some]
    rw [ih (fun x hx => h x (by simp [hx])), Nat.mul_comm]

/-- A scan stops at the leftmost offending character and nowhere else. -/
theorem scanDigits_error (t : Tables) (s : List Byte) (k n j : Nat) :
    scanDigits t k n s = .error j ↔
      ∃ i, j = k + i ∧ (∃ c, s[i]? = some c ∧ lookup t c = none) ∧
        ∀ m c, m < i → s[m]? = some c → lookup t c ≠ none := by
  induction s generalizing k n with
  | nil => simp [scanDigits]
  | cons c s ih =>
    cases hc : lookup t c with
    | none =>
      simp only [scanDigits, hc, Except.error.injEq]
      constructor
      · rintro rfl
        exact ⟨0, rfl, ⟨c, rfl, hc⟩, fun m _ hm => absurd hm (Nat.not_lt_zero m)⟩
      · rintro ⟨i, rfl, _, hlt⟩
        cases i with
        | zero => rfl
        | succ i => exact absurd hc (hlt 0 c (by omega) rfl)
    | some d =>
      simp only [scanDigits, hc, ih]
      constructor
      · rintro ⟨i, rfl, hi, hlt⟩
        refine ⟨i + 1, by omega, by simpa using hi, fun m x hm hx => ?_⟩
        cases m with
        | zero => obtain rfl : c = x := by simpa using hx
                  simp [hc]
        | succ m => exact hlt m x (by omega) (by simpa using hx)
      · rintro ⟨i, rfl, ⟨x, hx, hn⟩, hlt⟩
        cases i with
        | zero => obtain rfl : c = x := by simpa using hx
                  simp [hc] at hn
        | succ i => exact ⟨i, by omega, ⟨x, by simpa using hx, hn⟩, fun m y hm hy => hlt (m + 1) y (by omega) (by simpa using hy)⟩

end Sys2Proof.Machine
end

