-- ==== Sys2Proof/Laws/Commands.lean ====
section
/-! SUPPORT. One lemma for each function that a command is made of: digest lengths, the parts of a checksummed payload,
the exchange that REV repeats, the hexadecimal characters; and the form that every command has. -/

namespace Sys2Proof.Machine

/-! ### The form of a command -/

/-- Every command is one run of the core's step, under its own word. -/
theorem exec_runOperation (i : Instr) : ∃ f e, ∀ s, exec i s = runOperation (encode i) f e s := by
  cases i <;> exact ⟨_, _, fun _ => rfl⟩

theorem regAccepts_cmd (w : Byte) : regAccepts .cmd w.toNat = true := by
  simpa [regAccepts] using w.isLt

/-- A pending write of a command word is the next step. -/
theorem step_writeCmd (s : State) (w : Byte) (rest : List HostOp)
    (h : s.pending = .writeReg .cmd w.toNat :: rest) : step s = hostCommand w (s.setPending rest) := by
  rw [step_pending s _ _ h]
  simp only [hostOperation, hostWrite, regAccepts_cmd, if_true, BitVec.ofNat_toNat, BitVec.setWidth_eq]

/-! ### Digests and checksums -/

@[simp] theorem dh_length (d : Digests) (m : List Byte) : (dh d m).length = 32 := by simp [dh]

@[simp] theorem idh_length (d : Digests) (m : List Byte) : (idh d m).length = 20 := by simp [idh]

theorem cs4_eq_take (d : Digests) (p : List Byte) : cs4 d p = (dh d p).take 4 := memRead_prefix _ _

@[simp] theorem cs4_length (d : Digests) (p : List Byte) : (cs4 d p).length = 4 := by simp [cs4_eq_take]

theorem payloadPart_eq_take (b : List Byte) : payloadPart b = b.take (b.length - 4) := memRead_prefix _ _

theorem checksumPart_eq_drop (b : List Byte) : checksumPart b = b.drop (b.length - 4) := memRead_suffix _ _

/-! ### Shortest byte sequences -/

@[simp] theorem umin_zero : umin 0 = [] := rfl

/-- The last byte is the remainder, and the bytes before it are those of the quotient. -/
theorem umin_pos (n : Nat) (h : 0 < n) : umin n = umin (n / 256) ++ [BitVec.ofNat 8 n] := by
  rw [umin, digits_pos 256 (by omega) n h]
  simp only [umin, List.map_append, List.map_cons, List.map_nil]
  congr 2
  exact BitVec.eq_of_toNat_eq (by simp)

/-! ### The exchange of REV -/

theorem swapEnds_length (s : List Byte) (i : Nat) (h : i < s.length / 2) : (swapEnds s i).length = s.length := by
  have h1 : (memRead s (s.length - 1 - i) 1).length = 1 := memRead_length _ _ _ (by omega)
  have h2 : (memRead s i 1).length = 1 := memRead_length _ _ _ (by omega)
  have h3 := memWrite_length s (memRead s (s.length - 1 - i) 1) i (by omega)
  rw [swapEnds, memWrite_length _ _ _ (by rw [h3]; omega), h3]

/-- An exchange moves the elements `i` and `|s|-1-i` and no other. -/
theorem swapEnds_getElem? (s : List Byte) (i k : Nat) (h : i < s.length / 2) :
    (swapEnds s i)[k]? =
      if k = i then s[s.length - 1 - i]? else if k = s.length - 1 - i then s[i]? else s[k]? := by
  have h1 : (memRead s (s.length - 1 - i) 1).length = 1 := memRead_length _ _ _ (by omega)
  have h2 : (memRead s i 1).length = 1 := memRead_length _ _ _ (by omega)
  have h3 := memWrite_length s (memRead s (s.length - 1 - i) 1) i (by omega)
  rw [swapEnds, memWrite_getElem? _ _ _ _ (by rw [h3]; omega), memWrite_getElem? _ _ _ _ (by omega), h1, h2]
  simp only [memRead_getElem?]
  by_cases hk : k = i
  · subst hk
    rw [if_neg (by omega), if_pos (by omega), if_pos (by omega), if_pos rfl]
    simp
  · by_cases hj : k = s.length - 1 - i
    · subst hj
      rw [if_pos (by omega), if_pos (by omega), if_neg hk, if_pos rfl, Nat.sub_self, Nat.add_zero]
    · rw [if_neg (by omega), if_neg (by omega), if_neg hk, if_neg hj]

/-! ### Hexadecimal text -/

theorem hexText_cons (c : HexCase) (b : Byte) (s : List Byte) :
    hexText c (b :: s) = (hexDigits c).get (Fin.ofNat 16 (b.toNat / 16)) ::
      (hexDigits c).get (Fin.ofNat 16 (b.toNat % 16)) :: hexText c s := rfl

@[simp] theorem hexText_length (c : HexCase) (s : List Byte) : (hexText c s).length = 2 * s.length := by
  induction s with
  | nil => rfl
  | cons b s ih => rw [hexText_cons]; simp only [List.length_cons, ih]; omega

@[simp] theorem hexBytes_length (both : Bool) : ∀ s : List Byte, (hexBytes both s).length = s.length / 2
  | [] => rfl
  | [_] => by simp [hexBytes]
  | _ :: _ :: rest => by simp only [hexBytes, List.length_cons, hexBytes_length both rest]; omega

end Sys2Proof.Machine
end

