-- ==== Sys2Proof/Laws/PerInstr.lean ====
section
/-! SUPPORT. Per-instruction facts about the command words (30_encoding.md R90, R91). -/

namespace Sys2Proof.Laws.WordForm

/-- The command word of `i` has the reserved field zero and an operation value of the map (30_encoding.md R90, R92). -/
def Statement (i : Instr) : Prop := rsvField (encode i) = 0 ∧ wellFormedWord (encode i) = true

theorem b58enc : Statement .b58enc := by unfold Statement; decide
theorem b58dec : Statement .b58dec := by unfold Statement; decide
theorem b58cenc : Statement .b58cenc := by unfold Statement; decide
theorem b58cdec : Statement .b58cdec := by unfold Statement; decide
theorem dhash : Statement .dhash := by unfold Statement; decide
theorem idhash : Statement .idhash := by unfold Statement; decide
theorem hexenc : Statement .hexenc := by unfold Statement; decide
theorem hexdec : Statement .hexdec := by unfold Statement; decide
theorem rev : Statement .rev := by unfold Statement; decide
theorem ult64 : Statement .ult64 := by unfold Statement; decide
theorem dhashw : Statement .dhashw := by unfold Statement; decide

end Sys2Proof.Laws.WordForm
end

