-- ==== Sys2Proof/Laws/Safety.lean ====
section
/-! SUPPORT. The small lemmas of the two capacities. -/

namespace Sys2Proof.Machine

/-- `MAXLEN` is never below the least it can be. -/
theorem Config.fits_maxLen {n : Nat} (h : n ≤ Config.leastMaxLen) : Config.fits Config.maxLen n = true := by
  unfold Config.maxLen
  cases Config.maxLenMargin <;> simp [Config.fits]; omega

/-- A result of at most `2m + 8` elements, for an operand of `m` elements that fits, is within `OCAP`. -/
theorem Config.fits_ocap {cap : Option Nat} {m n : Nat} (h : Config.fits cap m = true) (hn : n ≤ 2 * m + 8) :
    Config.fits (Config.ocap cap) n = true := by
  cases cap <;> simp_all [Config.fits, Config.ocap]; omega

end Sys2Proof.Machine
end

