-- ==== Sys2Proof/Tests/Slice0.lean ====
section
/-! SUPPORT. The model's own tests: words written out from the encoding, the checks of WellFormed, the spec's vectors
(95_test_vectors.md), and a witness for the hypotheses of each statement. -/

namespace Sys2Proof.Tests

open Sys2Proof Sys2Proof.Machine

/-! ### Helpers -/

/-- The codes of a text. -/
def txt (s : List Char) : List Byte := s.map (fun c => BitVec.ofNat 8 c.toNat)

/-- The block right after reset with an operand loaded. -/
def readyWith (v : List Byte) : State := State.reset.setIbuf v

/-- The block right after reset with host operations to come. -/
def readyThen (ops : List HostOp) : State := State.reset.setPending ops

/-- The block without its digest units, with host operations to come. -/
def fatalThen (ops : List HostOp) : State := State.afterReset false ops none

/-- A block with a three-byte operand and a window. -/
def windowed (off len : Word32) : State := { readyWith [7, 8, 9] with off := off, len := len }

/-- The result registers after a step that goes on. -/
def result (o : Host.Outcome State Fault Refusal) : Option CallResult :=
  match o with
  | .next t => some (resultRegisters t)
  | .fault _ => none
  | .refused _ => none

/-- What a completed command leaves (95_test_vectors.md, Notation). -/
def completed (out data : List Byte) : Option CallResult := some ⟨0, 0, out, false, data⟩

/-- What a failed command leaves, `ERR c@p` (95_test_vectors.md, Notation). -/
def failed (c : BitVec 4) (p : Nat) (data : List Byte) : Option CallResult := some ⟨c, p, [], false, data⟩

/-- `S(m)` of the STUB configuration (95_test_vectors.md). -/
def stubSum (m : List Byte) : Nat := m.foldl (fun n b => n + b.toNat) m.length

/-- The STUB configuration of the digest units (95_test_vectors.md). -/
def stub : Digests where
  h256 := fun m => ⟨⟨(List.range 32).map (fun i => BitVec.ofNat 8 (stubSum m + i))⟩, by simp⟩
  h160 := fun m => ⟨⟨(List.range 20).map (fun i => BitVec.ofNat 8 (stubSum m + 0x80 + i))⟩, by simp⟩

/-- `n` bytes that rise by one from `b` on. -/
def rising (b n : Nat) : List Byte := (List.range n).map (fun i => BitVec.ofNat 8 (b + i))

/-! ### Words, bit by bit (30_encoding.md R90 to R92) -/

theorem test_decode_b58enc : decode 0b00000001 = .ok .b58enc := by decide
theorem test_decode_b58dec : decode 0b00000010 = .ok .b58dec := by decide
theorem test_decode_b58cenc : decode 0b00000011 = .ok .b58cenc := by decide
theorem test_decode_b58cdec : decode 0b00000100 = .ok .b58cdec := by decide
theorem test_decode_dhash : decode 0b00000101 = .ok .dhash := by decide
theorem test_decode_idhash : decode 0b00000110 = .ok .idhash := by decide
theorem test_decode_hexenc : decode 0b00000111 = .ok .hexenc := by decide
theorem test_decode_hexdec : decode 0b00001000 = .ok .hexdec := by decide
theorem test_decode_rev : decode 0b00001001 = .ok .rev := by decide
theorem test_decode_ult64 : decode 0b00001010 = .ok .ult64 := by decide
theorem test_decode_dhashw : decode 0b00001011 = .ok .dhashw := by decide

theorem test_decode_zero : decode 0b00000000 = .error .reservedOperation := by decide
theorem test_decode_past_last : decode 0b00001100 = .error .reservedOperation := by decide
theorem test_decode_reserved_field : decode 0b10000001 = .error .reservedField := by decide

/-- The table's own numbering: eight bits, and only they count. -/
theorem test_tableWord : decodeTableWord 8 0x09 = some .rev ∧ decodeTableWord 8 0x10 = none := by decide

/-! ### Ill-formed terms that WellFormed refuses -/

theorem test_wellFormed_word : wellFormedWord 0x0B = true := by decide
theorem test_illFormed_reserved_field : wellFormedWord 0x11 = false := by decide
theorem test_illFormed_operation_low : wellFormedWord 0x00 = false := by decide
theorem test_illFormed_operation_high : wellFormedWord 0x0C = false := by decide
theorem test_illFormed_load : wellFormedOp (some 1) (.load [0, 0]) = false := by decide
theorem test_illFormed_cmd : wellFormedOp none (.writeReg .cmd (2 ^ 8)) = false := by decide
theorem test_illFormed_off : wellFormedOp none (.writeReg .off (2 ^ 32)) = false := by decide
theorem test_illFormed_len : wellFormedOp none (.writeReg .len (2 ^ 32)) = false := by decide
theorem test_illFormed_opa : wellFormedOp none (.writeReg .opa (2 ^ 64)) = false := by decide
theorem test_illFormed_opb : wellFormedOp none (.writeReg .opb (2 ^ 64)) = false := by decide
theorem test_illFormed_ilen : wellFormedOp none (.writeReg .ilen 0) = false := by decide

/-! ### Vectors (95_test_vectors.md sections 1 and 3) -/

/-- S2: three leading zero-symbols before the digits of 66051. -/
theorem test_b58enc_leading_zeros :
    result (exec .b58enc (readyWith [0, 0, 0, 1, 2, 3])) =
      completed (txt ['1', '1', '1', 'L', 'd', 'p']) [0, 0, 0, 1, 2, 3] := by decide

/-- Section 2: a zero byte gives one character, not two. -/
theorem test_b58enc_zero : result (exec .b58enc (readyWith [0])) = completed (txt ['1']) [0] := by decide

/-- Section 3.2: "15Q". -/
theorem test_b58dec_top_bit :
    result (exec .b58dec (readyWith (txt ['1', '5', 'Q']))) = completed [0x00, 0xFF] (txt ['1', '5', 'Q']) := by
  decide

/-- Section 3.2: "11l1" is ERR 1@2. -/
theorem test_b58dec_position :
    result (exec .b58dec (readyWith (txt ['1', '1', 'l', '1']))) = failed 1 2 (txt ['1', '1', 'l', '1']) := by
  decide

/-- Section 3.3, STUB: the payload h'010203'. -/
theorem test_b58cenc_stub :
    endingB58cenc stub tablesValue [1, 2, 3] =
      .complete (txt ['3', 'D', 'U', 'z', 'h', '2', 'K', 'a', 'i']) false := by decide

/-- Section 3.3, STUB: the empty payload. -/
theorem test_b58cenc_stub_empty :
    endingB58cenc stub tablesValue [] = .complete (txt ['Q', 'p', 'Y', '5', '8']) false := by decide

/-- Section 3.3: the payload back, and the order of the errors. -/
theorem test_b58cdec_stub :
    endingB58cdec stub tablesValue (txt ['3', 'D', 'U', 'z', 'h', '2', 'K', 'a', 'i']) = .complete [1, 2, 3] false ∧
    endingB58cdec stub tablesValue (txt ['1', '1', '1', '1']) = .raise .csMismatch 0 ∧
    endingB58cdec stub tablesValue (txt ['L', 'd', 'p']) = .raise .csShort 0 ∧
    endingB58cdec stub tablesValue (txt ['3', 'Q', 'J', 'm', 'n', 'h', 'l']) = .raise .b58Char 6 := by decide

/-- Section 3.3, a collision under STUB: a changed payload that is itself valid is accepted. -/
theorem test_b58cdec_stub_collision :
    endingB58cdec stub tablesValue (txt ['z', 'x', 'Q', 'e', 'K', 'd', 'k']) = .complete [2, 1] false := by
  decide

/-- Section 3.1, STUB. -/
theorem test_dhash_stub :
    endingDhash stub [] = .complete (rising 0x10 32) false ∧
    endingDhash stub (List.replicate 21 0) = .complete (rising 0xB0 32) false := by decide

/-- Section 3.1, STUB: the last bytes wrap through 0xFF. -/
theorem test_idhash_stub :
    endingIdhash stub [] = .complete (rising 0x90 20) false ∧
    endingIdhash stub [0xAA, 0xBB, 1, 2, 3, 0xCC, 0xDD] = .complete (rising 0xF0 20) false := by decide

/-- Section 3.1, STUB: the window in the middle, and the empty one at the end. -/
theorem test_dhashw_stub :
    endingDhashw stub [0xAA, 0xBB, 1, 2, 3, 0xCC, 0xDD] 2 3 = .complete (rising 0x30 32) false ∧
    endingDhashw stub [0xAA, 0xBB, 1, 2, 3, 0xCC, 0xDD] 7 0 = .complete (rising 0x10 32) false := by decide

/-- Section 3.1: one past the end, and a sum that would wrap in 32 bits. -/
theorem test_dhashw_outside :
    endingDhashw stub [0xAA, 0xBB, 1, 2, 3, 0xCC, 0xDD] 8 0 = .raise .window 0 ∧
    endingDhashw stub [0xAA, 0xBB, 1, 2, 3, 0xCC, 0xDD] 4294967295 4294967295 = .raise .window 0 := by decide

/-- Section 3.4: the high four bits come first. -/
theorem test_hexenc_order :
    result (exec .hexenc (readyWith [0x0F, 0xAB])) = completed (txt ['0', 'f', 'a', 'b']) [0x0F, 0xAB] := by
  decide

/-- Section 3.4: mixed case. -/
theorem test_hexdec_mixed :
    result (exec .hexdec (readyWith (txt ['A', 'b', 'C', 'd', 'E', 'f']))) =
      completed [0xAB, 0xCD, 0xEF] (txt ['A', 'b', 'C', 'd', 'E', 'f']) := by decide

/-- Section 3.4: the odd length wins over the bad characters, and "1G" is ERR 5@1. -/
theorem test_hexdec_errors :
    result (exec .hexdec (readyWith (txt ['z', 'z', '1']))) = failed 4 0 (txt ['z', 'z', '1']) ∧
    result (exec .hexdec (readyWith (txt ['1', 'G']))) = failed 5 1 (txt ['1', 'G']) := by decide

/-- Section 3.4: an even length, in place and copied. -/
theorem test_rev_even : result (exec .rev (readyWith [1, 2, 3, 4])) = completed [4, 3, 2, 1] [4, 3, 2, 1] := by
  decide

/-- S11: no byte moves for a length of one; and an odd length keeps its middle. -/
theorem test_rev_odd :
    result (exec .rev (readyWith [1])) = completed [1] [1] ∧
    result (exec .rev (readyWith [1, 2, 3])) = completed [3, 2, 1] [3, 2, 1] := by decide

/-- S9: all bits set is not below 1. -/
theorem test_ult64_signs :
    endingUlt64 0xFFFFFFFFFFFFFFFF 1 = .complete [] false ∧
    endingUlt64 1 0xFFFFFFFFFFFFFFFF = .complete [] true := by decide

/-- 44_byteops.md R193: equal words are not below each other, and two words with the top bit set compare as usual. -/
theorem test_ult64_same_sign :
    endingUlt64 0x8000000000000000 0x8000000000000000 = .complete [] false ∧
    endingUlt64 0x8000000000000000 0x8000000000000001 = .complete [] true := by decide

/-- 30_encoding.md R94: `0x12` is not B58DEC. -/
theorem test_reserved_word : result (hostCommand 0x12 (readyWith [0x31])) = failed 7 0 [0x31] := by decide

/-- 60_exceptions.md R228: in `FATAL` the command leaves everything as it was. -/
theorem test_fatal_discards :
    result (step (fatalThen [.writeReg .cmd 0x01])) = completed [] [] ∧
    (fatalThen [.writeReg .cmd 0x01]).status = 0x80 := by decide

/-- The word that withFetchWord places is the one the next step runs. -/
theorem test_withFetchWord :
    result (step (State.reset.withFetchWord 8 0x0C)) = failed 7 0 [] ∧
    result (step (State.reset.withFetchWord 8 0x07)) = completed [] [] := by decide

/-- 10_state.md R38: each register number reads its own register; a window that does not fit tells them apart. -/
theorem test_register_reads :
    (List.range 16).map (fun n => regValue (regOfNumber (BitVec.ofNat 4 n))
      (((windowed 1 9).setCmd 0x0B).raise .window 4)) = [11, 6, 3, 0, 1, 9, 0, 0, 0, 4, 0, 0, 0, 0, 0, 0] ∧
    regValue .flag ((readyWith []).complete [1, 2] true) = 1 ∧
    regValue .olen ((readyWith []).complete [1, 2] true) = 2 ∧
    regValue .status (fatalThen []) = 0x80 := by decide

/-- 42_base58.md R146, the trace of 95_test_vectors.md section 2: the sign-bit artifact is taken away. -/
theorem test_decodeSteps :
    decodeSteps tablesValue (txt ['1', '3', 'D']) = .ok [0x00, 0x80] ∧
    decodeSteps tablesValue (txt ['1', '1']) = .ok [0x00, 0x00] := by decide

/-- 30_encoding.md R99: `LDO` is a read and a load. -/
theorem test_script_ldo :
    expandScript [.call .rev [1], .ldo [2]] =
      [.load [1], .writeReg .cmd 9, .readBuffer .obuf, .loadReply [2]] := by decide

/-! ### Witnesses: what the statements assume can be met

Each theorem meets the hypotheses of the statement it is named after, all together, clause by clause. -/

theorem tables_distinct : ∀ i j, alphabetValue.get i = alphabetValue.get j → i = j := by decide

theorem tables_indexed : ∀ i, lookup tablesValue (alphabetValue.get i) = some i := by decide

theorem tables_spelled (c : Byte) (i : Fin Config.base) (h : lookup tablesValue c = some i) :
    alphabetValue.get i = c := by
  rw [tablesValue, lookup_buildIndexes, indexOf] at h
  simpa using List.find?_some h

theorem tables_ok : TablesOk tablesValue := ⟨tables_distinct, tables_indexed, tables_spelled⟩

/-- Each clause of the helpers: the least positive number, a shortest form with its top byte not zero, a count that stops
at an element, and a sequence of exactly four. -/
theorem witness_SequenceHelpers :
    0 < 1 ∧ be [0x01, 0x00] = 256 ∧ [0x01, 0x00].length = (umin 256).length ∧
    [(0 : Byte), 0, 5][lzb [0, 0, 5]]? = some 5 ∧
    (txt ['1', '2'])[lzc alphabetValue (txt ['1', '2'])]? = some 0x32 ∧ 4 ≤ [(1 : Byte), 2, 3, 4].length := by
  decide

theorem witness_EncodingFunction : 0 < 1 := by decide

theorem witness_DecodingFunction :
    lookup tablesValue 0x7A = some 57 ∧ lookup tablesValue 0x31 = some 0 ∧
    (readyWith [0x31, 0xFF]).phase = .ready ∧ TablesOk (readyWith [0x31, 0xFF]).tables ∧
    ∃ c ∈ (readyWith [0x31, 0xFF]).ibuf, lookup (readyWith [0x31, 0xFF]).tables c = none :=
  ⟨by decide, by decide, rfl, tables_ok, 0xFF, by decide, by decide⟩

/-- Both sides of each equivalence are met, at the ends of the ranges. -/
theorem witness_DecoderIsExact :
    (0x0B : Byte) = encode .dhashw ∧ (0x01 : Byte) = encode .b58enc ∧
    (16 ≤ (0x10 : Byte).toNat ∧ (0x0C : Byte).toNat ∈ [0x0, 0xC, 0xD, 0xE, 0xF]) := by decide

theorem witness_RegisterPort :
    10 ≤ (10 : BitVec 4).toNat ∧ 10 ≤ (15 : BitVec 4).toNat ∧
    (readyThen [.writeReg .status 1]).pending = .writeReg .status 1 :: [] ∧
    (readyThen [.writeReg .olen 1]).pending = .writeReg .olen 1 :: [] ∧
    (readyThen [.writeReg .flag 1]).pending = .writeReg .flag 1 :: [] ∧
    (readyThen [.writeReg .errpos 1]).pending = .writeReg .errpos 1 :: [] ∧
    (readyThen [.writeReg (.reserved 0) 1]).pending = .writeReg (.reserved 0) 1 :: [] ∧
    (readyThen [.writeReg (.reserved 5) 1]).pending = .writeReg (.reserved 5) 1 :: [] ∧
    (readyThen [.readReg (.reserved 0)]).pending = .readReg (.reserved 0) :: [] ∧
    (readyThen [.writeReg .ilen 0]).pending = .writeReg .ilen 0 :: [] := by decide

/-- The last clause of `RegisterPort`: REV goes on and is no load. -/
theorem witness_RegisterPort_ilen :
    (readyThen [.writeReg .cmd 9]).pending = .writeReg .cmd 9 :: [] ∧
    (∃ t, step (readyThen [.writeReg .cmd 9]) = .next t) ∧
    (∀ v, HostOp.writeReg .cmd 9 ≠ .load v) ∧ (∀ v, HostOp.writeReg .cmd 9 ≠ .loadReply v) ∧
    HostOp.writeReg .cmd 9 ≠ .reset :=
  ⟨rfl, ⟨_, rfl⟩, by simp, by simp, by decide⟩

theorem witness_TablesFromAlphabet : ∀ i j, alphabetValue.get i = alphabetValue.get j → i = j := tables_distinct

theorem witness_ResetValues : (fatalThen [.reset]).pending = .reset :: [] := by decide

theorem witness_DhashCompletes : (readyWith []).phase = .ready := by decide

theorem witness_IdhashCompletes : (readyWith []).phase = .ready := by decide

/-- Both clauses at the end of the operand: the empty window there, and one element past it. -/
theorem witness_DhashwOutcomes :
    ((windowed 3 0).phase = .ready ∧ (windowed 3 0).off.toNat + (windowed 3 0).len.toNat ≤ (windowed 3 0).ibuf.length) ∧
    ((windowed 3 1).phase = .ready ∧ (windowed 3 1).ibuf.length < (windowed 3 1).off.toNat + (windowed 3 1).len.toNat) := by
  decide

theorem window_agrees (k : Nat) (h1 : 1 ≤ k) (h2 : k < 3) :
    ([7, 8, 9] : List Byte)[k]? = ([0, 8, 9, 1] : List Byte)[k]? := by
  obtain rfl | rfl : k = 1 ∨ k = 2 := by omega
  · rfl
  · rfl

/-- Two operands that differ before and after the window, and agree in it. -/
theorem witness_DhashwReadsWindowOnly :
    ∃ s s' : State, s.phase = .ready ∧ s'.phase = .ready ∧ s.off = s'.off ∧ s.len = s'.len ∧
      s.off.toNat + s.len.toNat ≤ s.ibuf.length ∧ s.off.toNat + s.len.toNat ≤ s'.ibuf.length ∧
      (∀ k, s.off.toNat ≤ k → k < s.off.toNat + s.len.toNat → s.ibuf[k]? = s'.ibuf[k]?) ∧ s.ibuf ≠ s'.ibuf :=
  ⟨windowed 1 2, (windowed 1 2).setIbuf [0, 8, 9, 1], rfl, rfl, rfl, rfl, by decide, by decide,
    fun k h1 h2 => window_agrees k h1 h2, by decide⟩

theorem witness_DhashwOfWholeIsDhash :
    (windowed 0 3).phase = .ready ∧ (windowed 0 3).off = 0 ∧
    (windowed 0 3).len.toNat = (windowed 0 3).ibuf.length := by decide

/-- The digest units agree with themselves, and with others on a command that uses none. -/
theorem witness_DigestApplications :
    (∀ x ∈ digestCalls callConfigValue .dhash [] 0 0, agreeOn Config.digests Config.digests x) ∧
    (∀ x ∈ digestCalls callConfigValue .rev [] 0 0, agreeOn Config.digests stub x) :=
  ⟨fun x _ => by cases x <;> rfl, fun x hx => absurd hx (by simp [digestCalls])⟩

theorem witness_B58encCompletes : (readyWith [0]).phase = .ready := by decide

theorem z_text_over : overAlphabet tablesValue (txt ['z', '1']) := by
  unfold overAlphabet; decide

theorem one_O_leftmost : leftmostAt (fun c => lookup tablesValue c = none) (txt ['1', 'O']) 1 :=
  ⟨⟨0x4F, by decide, by decide⟩, fun j c hj hc => by
    obtain rfl : j = 0 := by omega
    obtain rfl : 0x31 = c := by simpa [txt] using hc
    decide⟩

/-- Both clauses: a text over the alphabet, and one whose last character is the first bad one. -/
theorem witness_B58decOutcomes :
    ((readyWith (txt ['z', '1'])).phase = .ready ∧ TablesOk (readyWith (txt ['z', '1'])).tables ∧
      overAlphabet (readyWith (txt ['z', '1'])).tables (readyWith (txt ['z', '1'])).ibuf) ∧
    ((readyWith (txt ['1', 'O'])).phase = .ready ∧ TablesOk (readyWith (txt ['1', 'O'])).tables ∧
      leftmostAt (fun c => lookup (readyWith (txt ['1', 'O'])).tables c = none) (readyWith (txt ['1', 'O'])).ibuf 1) :=
  ⟨⟨rfl, tables_ok, z_text_over⟩, ⟨rfl, tables_ok, one_O_leftmost⟩⟩

theorem witness_DecodeStepsComputeDec : TablesOk tablesValue ∧ overAlphabet tablesValue (txt ['z', '1']) :=
  ⟨tables_ok, z_text_over⟩

theorem witness_Base58RoundTrip : (readyWith [0, 0]).phase = .ready ∧ TablesOk (readyWith [0, 0]).tables :=
  ⟨rfl, tables_ok⟩

theorem witness_Base58TextRoundTrip :
    (readyWith (txt ['z', '1'])).phase = .ready ∧ TablesOk (readyWith (txt ['z', '1'])).tables ∧
    overAlphabet (readyWith (txt ['z', '1'])).tables (readyWith (txt ['z', '1'])).ibuf :=
  ⟨rfl, tables_ok, z_text_over⟩

theorem witness_Base58Laws :
    TablesOk tablesValue ∧ overAlphabet tablesValue (txt ['z', '1']) ∧
    enc tablesValue.alphabet [] = enc tablesValue.alphabet [] := ⟨tables_ok, z_text_over, rfl⟩

theorem witness_Base58Lengths : 57 < 58 ^ 1 ∧ 58 < 58 ^ 2 ∧ 255 < 256 ^ 1 ∧ 256 < 256 ^ 2 := by decide

theorem witness_B58cencCompletes : (readyWith []).phase = .ready := by decide

theorem ones_over : overAlphabet tablesValue (txt ['1', '1', '1']) ∧ overAlphabet tablesValue (txt ['1', '1', '1', '1']) := by
  unfold overAlphabet; decide

/-- The clauses of a bad character, and of decodings of three bytes and of four. -/
theorem witness_B58cdecOutcomes :
    ((readyWith (txt ['1', 'O'])).phase = .ready ∧ TablesOk (readyWith (txt ['1', 'O'])).tables ∧
      leftmostAt (fun c => lookup (readyWith (txt ['1', 'O'])).tables c = none) (readyWith (txt ['1', 'O'])).ibuf 1) ∧
    (overAlphabet tablesValue (txt ['1', '1', '1']) ∧ dec tablesValue (txt ['1', '1', '1']) = [0, 0, 0]) ∧
    (overAlphabet tablesValue (txt ['1', '1', '1', '1']) ∧ dec tablesValue (txt ['1', '1', '1', '1']) = [0, 0, 0, 0]) :=
  ⟨⟨rfl, tables_ok, one_O_leftmost⟩, ⟨ones_over.1, by decide⟩, ⟨ones_over.2, by decide⟩⟩

theorem witness_ChecksumRoundTrip : (readyWith []).phase = .ready ∧ TablesOk (readyWith []).tables := ⟨rfl, tables_ok⟩

theorem witness_ChecksumAcceptsExactly :
    TablesOk tablesValue ∧ overAlphabet tablesValue (txt ['Q', 'p', 'Y', '5', '8']) ∧
    validPayload stub (dec tablesValue (txt ['Q', 'p', 'Y', '5', '8'])) = true :=
  ⟨tables_ok, by unfold overAlphabet; decide, by decide⟩

/-- The last bit of the last checksum byte of a three-byte payload, and the first bit of the first payload byte. -/
theorem witness_ChecksumRejectsFlippedBit :
    (TablesOk tablesValue ∧ 6 < ([1, 2, 3] : List Byte).length + 4 ∧ 7 < 8) ∧
    (TablesOk tablesValue ∧ 0 < ([1, 2, 3] : List Byte).length + 4 ∧ 0 < 8) :=
  ⟨⟨tables_ok, by decide, by decide⟩, ⟨tables_ok, by decide, by decide⟩⟩

theorem witness_RevReverses : (readyWith [1, 2, 3]).phase = .ready ∧ Instr.hexenc ≠ .rev := by decide

theorem witness_HexencCompletes :
    (readyWith [0x9F]).phase = .ready ∧ (readyWith [0x9F]).ibuf[0]? = some 0x9F := by decide

theorem g_leftmost : leftmostAt (fun c => hexval true c = none) (txt ['F', 'g']) 1 :=
  ⟨⟨0x67, by decide, by decide⟩, fun j c hj hc => by
    obtain rfl : j = 0 := by omega
    obtain rfl : 0x46 = c := by simpa [txt] using hc
    decide⟩

/-- The three clauses: an odd length, a bad last character, and two digits at the ends of their ranges. -/
theorem witness_HexdecOutcomes :
    ((readyWith (txt ['g'])).phase = .ready ∧ (readyWith (txt ['g'])).ibuf.length % 2 = 1) ∧
    ((readyWith (txt ['F', 'g'])).phase = .ready ∧ (readyWith (txt ['F', 'g'])).ibuf.length % 2 = 0 ∧
      leftmostAt (fun c => hexval true c = none) (readyWith (txt ['F', 'g'])).ibuf 1) ∧
    ((readyWith (txt ['0', 'f'])).phase = .ready ∧ (readyWith (txt ['0', 'f'])).ibuf.length % 2 = 0 ∧
      (∀ c ∈ (readyWith (txt ['0', 'f'])).ibuf, hexval true c ≠ none) ∧
      (readyWith (txt ['0', 'f'])).ibuf[2 * 0]? = some 0x30 ∧ (readyWith (txt ['0', 'f'])).ibuf[2 * 0 + 1]? = some 0x66 ∧
      hexval true 0x30 = some 0 ∧ hexval true 0x66 = some 15) :=
  ⟨by decide, ⟨rfl, by decide, g_leftmost⟩, by decide⟩

theorem witness_HexRoundTrip : (readyWith [0x00, 0xFF]).phase = .ready := by decide

theorem witness_HexencOfHexdec :
    (txt ['A', 'f']).length % 2 = 0 ∧ (∀ x ∈ txt ['A', 'f'], hexval true x ≠ none) ∧
    (txt ['A', 'f'])[1]? = some 0x66 ∧ (∀ x ∈ txt ['0', 'f'], x ∈ (hexDigits .lowercase).toList) := by decide

theorem witness_Ult64Completes : (readyWith []).phase = .ready := by decide

theorem witness_Ult64StrictOrder :
    lessUnsigned 0 0x7FFFFFFFFFFFFFFF = true ∧ lessUnsigned 0x7FFFFFFFFFFFFFFF 0x8000000000000000 = true ∧
    (0 : Word64) ≠ 0xFFFFFFFFFFFFFFFF := by decide

theorem witness_StepRunsDecodedInstruction :
    (readyThen [.writeReg .cmd 11]).pending = .writeReg .cmd (0x0B : Byte).toNat :: [] ∧ decode 0x0B = .ok .dhashw := by
  decide

/-- A word of each kind of reserved word, at the ends of its range. -/
theorem witness_ReservedWordFails :
    ((readyThen [.writeReg .cmd 16]).phase = .ready ∧
      (readyThen [.writeReg .cmd 16]).pending = .writeReg .cmd (0x10 : Byte).toNat :: [] ∧ 16 ≤ (0x10 : Byte).toNat) ∧
    ((readyThen [.writeReg .cmd 12]).phase = .ready ∧
      (readyThen [.writeReg .cmd 12]).pending = .writeReg .cmd (0x0C : Byte).toNat :: [] ∧
      (0x0C : Byte).toNat ∈ [0x0, 0xC, 0xD, 0xE, 0xF]) := by decide

theorem witness_ErrorEntry :
    (readyWith []).phase = .ready ∧ ∃ t, hostCommand 0x00 (readyWith []) = .next t ∧ t.code ≠ 0 :=
  ⟨rfl, _, rfl, by decide⟩

/-- The block after a REV of the empty operand, with one host operation to come. -/
def revThen (op : HostOp) : State := { readyThen [op] with cmd := 0x09 }

theorem inv_revThen (op : HostOp) : (revThen op).Inv where
  tables := tables_ok
  operandFits := Config.fits_zero _
  errposFits := Config.fits_zero _
  errposKind := fun h => absurd rfl h
  outcome := .inl rfl
  failClosed := fun h => absurd rfl h
  flagOnly := fun h => Bool.noConfusion h
  resultFits := Config.fits_zero _
  fatalQuiet := fun h => Phase.noConfusion h

theorem inv_fatalThen (op : HostOp) : (fatalThen [op]).Inv where
  tables := tables_ok
  operandFits := Config.fits_zero _
  errposFits := Config.fits_zero _
  errposKind := fun h => absurd rfl h
  outcome := .inl rfl
  failClosed := fun h => absurd rfl h
  flagOnly := fun h => Bool.noConfusion h
  resultFits := Config.fits_zero _
  fatalQuiet := fun _ => ⟨rfl, rfl, rfl, rfl, rfl⟩

theorem witness_FatalDiscardsCommands :
    (fatalThen [.writeReg .cmd 9]).phase = .fatal ∧
    (fatalThen [.writeReg .cmd 9]).pending = .writeReg .cmd (0x09 : Byte).toNat :: [] ∧
    (fatalThen [.writeReg .cmd 9]).Inv := ⟨rfl, rfl, inv_fatalThen _⟩

/-- In both lifecycle states, a host operation that is no reset and goes on. -/
theorem witness_PhaseChangesAtResetOnly :
    (∃ t, (readyThen [.writeReg .off 1]).pending = .writeReg .off 1 :: [] ∧
      step (readyThen [.writeReg .off 1]) = .next t ∧
      HostOp.writeReg .off 1 ≠ .reset ∧ (readyThen [.writeReg .off 1]).phase = .ready) ∧
    (∃ t, (fatalThen [.writeReg .cmd 1]).pending = .writeReg .cmd 1 :: [] ∧
      step (fatalThen [.writeReg .cmd 1]) = .next t ∧ HostOp.writeReg .cmd 1 ≠ .reset ∧
      (fatalThen [.writeReg .cmd 1]).phase = .fatal) :=
  ⟨⟨_, rfl, rfl, by decide, rfl⟩, ⟨_, rfl, rfl, by decide, rfl⟩⟩

/-- A command, a failing one, and a reset out of `FATAL`, each from a state with the invariant. -/
theorem witness_StepKeepsInv :
    ((revThen (.writeReg .cmd 9)).Inv ∧ ∃ t, step (revThen (.writeReg .cmd 9)) = .next t) ∧
    ((revThen (.writeReg .cmd 0)).Inv ∧ ∃ t, step (revThen (.writeReg .cmd 0)) = .next t) ∧
    ((fatalThen [.reset]).Inv ∧ ∃ t, step (fatalThen [.reset]) = .next t) :=
  ⟨⟨inv_revThen _, _, rfl⟩, ⟨inv_revThen _, _, rfl⟩, ⟨inv_fatalThen _, _, rfl⟩⟩

/-- Two states that differ in every register that ULT64, DHASHW and REV do not read. -/
theorem witness_CommandsAreStateless :
    ((readyWith [1]).phase = .ready ∧ (windowed 1 1).phase = .ready ∧
      readsAgree 0x0A (readyWith [1]) (windowed 1 1) ∧ readyWith [1] ≠ windowed 1 1) ∧
    ((windowed 1 1).phase = .ready ∧ (State.raise (windowed 1 1) .window 0).phase = .ready ∧
      readsAgree 0x0B (windowed 1 1) (State.raise (windowed 1 1) .window 0) ∧
      windowed 1 1 ≠ State.raise (windowed 1 1) .window 0) ∧
    ((windowed 1 1).phase = .ready ∧ (readyWith [7, 8, 9]).phase = .ready ∧
      readsAgree 0x09 (windowed 1 1) (readyWith [7, 8, 9]) ∧ windowed 1 1 ≠ readyWith [7, 8, 9]) := by
  refine ⟨⟨rfl, rfl, ⟨rfl, rfl, rfl⟩, ?_⟩, ⟨rfl, rfl, ⟨rfl, rfl, rfl, rfl⟩, ?_⟩, ⟨rfl, rfl, ⟨rfl, rfl⟩, ?_⟩⟩
  · exact fun h => absurd (congrArg State.off h) (by decide)
  · exact fun h => absurd (congrArg State.code h) (by decide)
  · exact fun h => absurd (congrArg State.off h) (by decide)

theorem witness_CommandsKeepOperands : decode 0x0B ≠ .ok .rev := by decide

theorem witness_CommandTwice : (0x0A : Byte) ≠ 0x09 ∧ (0x09 : Byte) = 0x09 := by decide

/-- The block with one transaction to come, and a read after it. -/
def transacting : State :=
  readyThen (callScript 0x09 (rising 1 12) 0xFFFFFFFF 0 0xFFFFFFFFFFFFFFFF 0 ++ [.readBuffer .obuf])

theorem witness_TransactionIsCall :
    transacting.phase = .ready ∧ transacting.tables = tablesValue ∧
    Config.fits Config.maxLen (rising 1 12).length = true ∧
    transacting.pending = callScript 0x09 (rising 1 12) 0xFFFFFFFF 0 0xFFFFFFFFFFFFFFFF 0 ++ [.readBuffer .obuf] :=
  ⟨rfl, rfl, Config.fits_maxLen (by decide), rfl⟩

/-- One state for each clause. -/
theorem witness_HostOperations :
    (readyThen [.load [1]]).pending = .load [1] :: [] ∧
    (readyThen [.writeReg .off (2 ^ 32)]).pending = .writeReg .off (2 ^ 32) :: [] ∧
    (readyThen [.writeReg .len (2 ^ 32 - 1)]).pending = .writeReg .len (2 ^ 32 - 1) :: [] ∧
    (readyThen [.writeReg .opa (2 ^ 64 - 1)]).pending = .writeReg .opa (2 ^ 64 - 1) :: [] ∧
    (readyThen [.writeReg .opb (2 ^ 64)]).pending = .writeReg .opb (2 ^ 64) :: [] ∧
    (readyThen [.writeReg .cmd 256]).pending = .writeReg .cmd 256 :: [] ∧
    (readyThen [.readBuffer .ibuf]).pending = .readBuffer .ibuf :: [] ∧
    (readyThen [.readBuffer .obuf]).pending = .readBuffer .obuf :: [] ∧
    (∀ r, (readyThen [.readReg r]).pending = .readReg r :: []) ∧
    (readyThen [.readElement .ibuf 0]).pending = .readElement .ibuf 0 :: [] ∧
    (readyThen [.readElement .obuf 0]).pending = .readElement .obuf 0 :: [] :=
  ⟨rfl, rfl, rfl, rfl, rfl, rfl, rfl, rfl, fun _ => rfl, rfl, rfl⟩

theorem witness_HostWritesNoResult :
    (readyThen [.writeReg .off 1]).pending = .writeReg .off 1 :: [] ∧ HostOp.writeReg .off 1 ≠ .reset ∧
    (∀ v, HostOp.writeReg .off 1 ≠ .writeReg .cmd v) ∧ ∃ t, step (readyThen [.writeReg .off 1]) = .next t :=
  ⟨rfl, by decide, by simp, _, rfl⟩

theorem witness_LdoLoadsResult : (readyThen (expandLine (.ldo [1]))).pending = expandLine (.ldo [1]) ++ [] := by decide

/-- Both sides of the equivalence are met. -/
theorem witness_RunEndsWithHostOperations :
    State.reset.pending = [] ∧ (readyThen [.reset]).pending ≠ [] := by decide

/-- This hardware's configuration with the STUB digest units. -/
def stubConfig : CallConfig := ⟨stub, tablesValue, hexCaseValue, hexdecBothValue⟩

/-- A command of each kind that completes. -/
theorem witness_ResultCapacity :
    callEnding stubConfig .b58enc [1] 0 0 0 0 = .complete (txt ['2']) false ∧
    callEnding stubConfig .b58cenc [] 0 0 0 0 = .complete (txt ['Q', 'p', 'Y', '5', '8']) false ∧
    callEnding stubConfig .b58dec (txt ['2']) 0 0 0 0 = .complete [1] false ∧
    callEnding stubConfig .b58cdec (txt ['Q', 'p', 'Y', '5', '8']) 0 0 0 0 = .complete [] false ∧
    callEnding stubConfig .hexenc [0xFF] 0 0 0 0 = .complete (txt ['f', 'f']) false ∧
    callEnding stubConfig .hexdec (txt ['f', 'f']) 0 0 0 0 = .complete [0xFF] false ∧
    callEnding stubConfig .rev [1, 2] 0 0 0 0 = .complete [2, 1] false ∧
    callEnding stubConfig .dhash [] 0 0 0 0 = .complete (rising 0x10 32) false ∧
    callEnding stubConfig .dhashw [] 0 0 0 0 = .complete (rising 0x10 32) false ∧
    callEnding stubConfig .idhash [] 0 0 0 0 = .complete (rising 0x90 20) false ∧
    callEnding stubConfig .ult64 [] 0 0 0 1 = .complete [] true := by decide

/-- The premises clause by clause: the capacities 12 and 11 at the boundary, an operand that fills a buffer, a command
that completes, and DHASH of the longest operand that fits whatever `MAXLEN` is. -/
theorem witness_ResultsFitOcap :
    Config.holdsDigest (some 12) = true ∧ Config.holdsDigest (some 11) = false ∧ Config.holdsDigest none = true ∧
    Config.fits (some 1) ([0xFF] : List Byte).length = true ∧
    callEnding stubConfig .hexenc [0xFF] 0 0 0 0 = .complete (txt ['f', 'f']) false ∧ digestLength .hexenc = none ∧
    ((readyWith (rising 0 12)).phase = .ready ∧ Config.fits Config.maxLen (readyWith (rising 0 12)).ilen = true ∧
      ∃ t, hostCommand 0x05 (readyWith (rising 0 12)) = .next t) ∧ 11 < 12 :=
  ⟨by decide, by decide, by decide, by decide, by decide, rfl,
    ⟨rfl, Config.fits_maxLen (by decide), _, rfl⟩, by decide⟩

end Sys2Proof.Tests
end

section
/-! The helpers of 00_scope.md R15: `umin` inverts `be` up to leading zero bytes, a leading count stops at the first
other element, and `first4` is a prefix. -/

namespace Sys2Proof.Machine

/-! ### The value of a shortest sequence -/

@[simp] theorem be_umin (n : Nat) : be (umin n) = n := by
  induction n using Nat.strong_induction_on with
  | _ n ih =>
    rcases Nat.eq_zero_or_pos n with rfl | hn
    · rfl
    · rw [umin_pos n hn, be_append, ih (n / 256) (by omega)]
      simp only [BitVec.toNat_ofNat]
      omega

@[simp] theorem umin_eq_nil (n : Nat) : umin n = [] ↔ n = 0 :=
  ⟨fun h => by rw [← be_umin n, h, be_nil], fun h => by rw [h, umin_zero]⟩

/-- A further byte is the last one of the longer shortest sequence, unless the whole value is 0. -/
theorem umin_append_byte (n : Nat) (b : Byte) (h : 0 < 256 * n + b.toNat) :
    umin (256 * n + b.toNat) = umin n ++ [b] := by
  have hb : b.toNat < 256 := b.isLt
  have hdiv : (256 * n + b.toNat) / 256 = n := by omega
  have hlast : BitVec.ofNat 8 (256 * n + b.toNat) = b := BitVec.eq_of_toNat_eq (by simp; omega)
  rw [umin_pos _ h, hdiv, hlast]

/-- `umin` undoes `be` but for the leading zero bytes, which have no value. -/
theorem umin_be (s : List Byte) : umin (be s) = s.drop (lzb s) := by
  rw [lzb, drop_leading]
  induction s using List.reverseRecOn with
  | nil => rfl
  | append_singleton s b ih =>
    rw [be_append, List.dropWhile_append, ← ih]
    rcases Nat.eq_zero_or_pos (be s) with hs | hs
    · by_cases hb : b = 0#8
      · simp [hs, hb]
      · have hpos : 0 < b.toNat := Nat.pos_of_ne_zero fun h => hb (BitVec.eq_of_toNat_eq h)
        rw [umin_append_byte _ _ (by omega)]
        simp [hs, hb]
    · rw [umin_append_byte _ _ (by omega), if_neg]
      simp only [List.isEmpty_iff, umin_eq_nil]
      omega

/-! ### `umin` is the shortest sequence of its value -/

theorem umin_be_suffix (s : List Byte) : umin (be s) <:+ s := by
  rw [umin_be]
  exact List.drop_suffix _ _

theorem umin_head_ne_zero (n : Nat) (hn : 0 < n) : ∃ h t, umin n = h :: t ∧ h ≠ 0 := by
  have hstrip : (umin n).drop (lzb (umin n)) = umin n := by rw [← umin_be, be_umin]
  cases hu : umin n with
  | nil => exact absurd ((umin_eq_nil n).mp hu) (by omega)
  | cons h t =>
    have hfirst : (h :: t)[lzb (h :: t)]? = some h := by
      rw [← Nat.add_zero (lzb (h :: t)), ← List.getElem?_drop, ← hu, hstrip, hu]
      rfl
    exact ⟨h, t, rfl, getElem?_leading_ne 0 (h :: t) h hfirst⟩

/-! ### Leading counts -/

theorem leading_spec (c : Byte) (s : List Byte) :
    leading c s ≤ s.length ∧ (∀ x ∈ s.take (leading c s), x = c) ∧ ∀ x, s[leading c s]? = some x → x ≠ c :=
  ⟨leading_le c s, by rw [take_leading]; exact fun _ => List.eq_of_mem_replicate, getElem?_leading_ne c s⟩

/-! ### The first four elements -/

theorem first4_length (d : List Byte) (h : 4 ≤ d.length) : (first4 d).length = 4 :=
  memRead_length d 0 4 (by omega)

theorem first4_getElem? (d : List Byte) (k : Nat) (h : k < 4) : (first4 d)[k]? = d[k]? := by
  rw [first4, memRead_getElem?, if_pos h, Nat.zero_add]

/-- Settles O1: `umin (be s)` is `s` without its leading zero bytes, hence a suffix of `s`, so no sequence of the same
value is shorter and one of the same length is `umin` itself. -/
theorem sequenceHelpers : Obligations.SequenceHelpers := by
  unfold Obligations.SequenceHelpers
  refine ⟨be_nil, be_append, umin_zero, be_umin, umin_head_ne_zero, ?shortest, ?unique, leading_spec 0,
    fun A => leading_spec (A.get 0), fun d h => ⟨first4_length d h, first4_getElem? d⟩⟩
  case shortest =>
    rintro n s rfl
    exact (umin_be_suffix s).length_le
  case unique =>
    rintro n s rfl hlen
    exact ((umin_be_suffix s).eq_of_length hlen.symm).symm

end Sys2Proof.Machine
end

section
/-! Reset (10_state.md R37) and statelessness (10_state.md R36): every command is the core's step, and ends as the pure
function `callEnding` of the configuration and the operands says. -/

namespace Sys2Proof.Machine

/-! ### The state when reset ends -/

@[simp] theorem State.afterReset_ilen (d : Bool) (p : List HostOp) (r : Option Reply) :
    (State.afterReset d p r).ilen = 0 := rfl

@[simp] theorem State.afterReset_olen (d : Bool) (p : List HostOp) (r : Option Reply) :
    (State.afterReset d p r).olen = 0 := rfl

@[simp] theorem State.afterReset_status (d : Bool) (p : List HostOp) (r : Option Reply) :
    (State.afterReset d p r).status = if d then 0x00 else 0x80 := by
  rw [State.status, State.afterReset_phase, State.afterReset_code]
  revert d
  decide

/-- The reset event hands through what is still pending, and the reply. -/
theorem step_reset (s : State) (rest : List HostOp) (h : s.pending = .reset :: rest) :
    step s = .next (State.afterReset true rest s.reply) := by
  rw [step_pending s .reset rest h]
  rfl

/-- Settles O9: the reset event leads to the state `afterReset`, whose fields are those of the reset table. -/
theorem resetValues : Obligations.ResetValues := by
  unfold Obligations.ResetValues
  refine ⟨fun s rest h => ⟨_, step_reset s rest h, ?_⟩, fun present p r => ⟨_, rfl, ?_⟩, rfl⟩
  · simp [tablesValue, phaseAtReset]
  · simp [tablesValue, phaseAtReset]

/-! ### The loop of REV -/

/-- After `n` rounds the first `n` bytes and the last `n` have changed places, and the middle is as it was. -/
theorem foldl_swapEnds_getElem? (s : List Byte) (n : Nat) (h : n ≤ s.length / 2) :
    ((List.range n).foldl swapEnds s).length = s.length ∧
    ∀ k, k < s.length → ((List.range n).foldl swapEnds s)[k]? =
      if k < n ∨ s.length - 1 - k < n then s[s.length - 1 - k]? else s[k]? := by
  induction n with
  | zero => simp
  | succ n ih =>
    obtain ⟨hlen, hget⟩ := ih (by omega)
    rw [List.range_succ, List.foldl_append, List.foldl_cons, List.foldl_nil]
    refine ⟨by rw [swapEnds_length _ _ (by omega), hlen], fun k hk => ?_⟩
    rw [swapEnds_getElem? _ _ _ (by omega), hlen]
    rcases eq_or_ne k n with rfl | hfront
    · rw [if_pos rfl, hget _ (by omega), if_neg (by omega), if_pos (by omega)]
    rcases eq_or_ne k (s.length - 1 - n) with rfl | hback
    · rw [if_neg hfront, if_pos rfl, hget _ (by omega), if_neg (by omega), if_pos (by omega)]
      congr 1
      omega
    · rw [if_neg hfront, if_neg hback, hget k hk]
      exact if_congr (by omega) rfl rfl

/-- The loop of REV reverses (44_byteops.md R190). -/
theorem reverseInPlace_eq_reverse (s : List Byte) : reverseInPlace s = s.reverse := by
  obtain ⟨hlen, hget⟩ := foldl_swapEnds_getElem? s (s.length / 2) (Nat.le_refl _)
  refine List.ext_getElem? fun k => ?_
  rcases Nat.lt_or_ge k s.length with hk | hk
  · rw [reverseInPlace, hget k hk, List.getElem?_reverse hk]
    split
    · rfl
    · congr 1
      omega
  · rw [List.getElem?_eq_none (by rw [reverseInPlace, hlen]; exact hk), List.getElem?_eq_none (by simpa using hk)]

/-! ### A command word as one step of the core -/

theorem rsvField_append_opField (w : Byte) : rsvField w ++ opField w = w :=
  BitVec.extractLsb'_append_extractLsb'_eq_extractLsb' (by decide) |>.trans (by simp)

theorem encode_of_decodeOp (op : BitVec 4) (i : Instr) (h : decodeOp op = some i) : encode i = 0#4 ++ op := by
  revert op i
  decide

theorem encode_of_decode {w : Byte} {i : Instr} (h : decode w = .ok i) : encode i = w := by
  unfold decode at h
  split at h
  case isTrue hrsv =>
    split at h
    case h_1 j hop =>
      obtain rfl : j = i := by simpa using h
      calc encode j = rsvField w ++ opField w := by rw [encode_of_decodeOp _ _ hop, hrsv]; rfl
        _ = w := rsvField_append_opField w
    case h_2 => cases h
  case isFalse => cases h

/-- What a command leaves in `IBUF`: REV the reversed operand, every other one the operand (20_memory.md R75). -/
def commandOperand (i : Instr) (s : State) : List Byte :=
  match i with
  | .rev => s.ibuf.reverse
  | _ => s.ibuf

/-- How a command ends: as `callEnding` says of the tables and the operand registers. -/
def commandEnding (i : Instr) (s : State) : Ending :=
  callEnding { callConfigValue with tables := s.tables } i s.ibuf s.off.toNat s.len.toNat s.opa s.opb

theorem exec_eq_runOperation (i : Instr) (s : State) :
    exec i s = runOperation (encode i) (commandOperand i) (commandEnding i) s := by
  cases i
  case rev => simp only [exec, execRev, endingRev, State.wholeOperand_eq, reverseInPlace_eq_reverse]; rfl
  all_goals
    simp only [exec, execB58enc, execB58dec, execB58cenc, execB58cdec, execDhash, execIdhash, execHexenc, execHexdec,
      execUlt64, execDhashw, State.wholeOperand_eq]
    rfl

/-- What the write of a command word leaves in `IBUF` while READY. -/
def operandAfter (w : Byte) : State → List Byte :=
  match decode w with
  | .ok i => commandOperand i
  | .error _ => keepIbuf

/-- How the write of a command word ends while READY. -/
def endingOf (w : Byte) : State → Ending :=
  match decode w with
  | .ok i => commandEnding i
  | .error _ => fun _ => .raise .illegal 0

theorem operandAfter_command {w : Byte} {i : Instr} (h : decode w = .ok i) : operandAfter w = commandOperand i := by
  simp only [operandAfter, h]

theorem endingOf_command {w : Byte} {i : Instr} (h : decode w = .ok i) : endingOf w = commandEnding i := by
  simp only [endingOf, h]

theorem operandAfter_reserved {w : Byte} {e : DecodeError} (h : decode w = .error e) : operandAfter w = keepIbuf := by
  simp only [operandAfter, h]

theorem endingOf_reserved {w : Byte} {e : DecodeError} (h : decode w = .error e) :
    endingOf w = fun _ => .raise .illegal 0 := by
  simp only [endingOf, h]

/-- Every write of a command word is one run of the core's step. -/
theorem hostCommand_eq_runOperation (w : Byte) (s : State) :
    hostCommand w s = runOperation w (operandAfter w) (endingOf w) s := by
  unfold hostCommand
  cases hd : decode w with
  | error e =>
    rw [operandAfter_reserved hd, endingOf_reserved hd]
    rfl
  | ok i =>
    rw [operandAfter_command hd, endingOf_command hd, ← encode_of_decode hd]
    exact exec_eq_runOperation i s

theorem hostCommand_ready (w : Byte) (s : State) (h : s.phase = .ready) :
    hostCommand w s = .next (((s.setCmd w).setIbuf (operandAfter w s)).settle (endingOf w s)) :=
  (hostCommand_eq_runOperation w s).trans (runOperation_ready w _ _ s h)

/-! ### Statelessness -/

/-- The result registers that an ending leaves do not depend on the state that it settles. -/
theorem State.settle_results (s s' : State) (e : Ending) :
    (s.settle e).code = (s'.settle e).code ∧ (s.settle e).errpos = (s'.settle e).errpos ∧
    (s.settle e).obuf = (s'.settle e).obuf ∧ (s.settle e).olen = (s'.settle e).olen ∧
    (s.settle e).flag = (s'.settle e).flag := by
  cases e with
  | complete out flag => exact ⟨rfl, rfl, rfl, rfl, rfl⟩
  | raise k pos => exact ⟨rfl, rfl, rfl, rfl, rfl⟩

/-- A word ends the same way from states that agree on what it reads. -/
theorem endingOf_eq_of_readsAgree {w : Byte} {s s' : State} (h : readsAgree w s s') :
    endingOf w s = endingOf w s' := by
  obtain ⟨htables, hreads⟩ := h
  cases hd : decode w with
  | error e => rw [endingOf_reserved hd]
  | ok i =>
    rw [endingOf_command hd, commandEnding, commandEnding, htables]
    rw [hd] at hreads
    cases i
    case ult64 =>
      obtain ⟨ha, hb⟩ := hreads
      simp only [callEnding, ha, hb]
    case dhashw =>
      obtain ⟨hibuf, hoff, hlen⟩ := hreads
      simp only [callEnding, hibuf, hoff, hlen]
    all_goals
      have hibuf : s.ibuf = s'.ibuf := hreads
      simp only [callEnding, hibuf]

/-- REV leaves the same operand in states that agree on what it reads. -/
theorem operandAfter_rev_eq_of_readsAgree {s s' : State} (h : readsAgree 0x09 s s') :
    operandAfter 0x09 s = operandAfter 0x09 s' := by
  obtain ⟨_, hreads⟩ := h
  have hd : decode 0x09 = .ok .rev := by decide
  have hibuf : s.ibuf = s'.ibuf := by rw [hd] at hreads; exact hreads
  rw [operandAfter_command hd]
  exact congrArg List.reverse hibuf

/-- Settles O46: what the word leaves is fixed by `endingOf` and, for REV, `operandAfter`, which read nothing but the
registers of R34 and the tables. -/
theorem commandsAreStateless : Obligations.CommandsAreStateless := by
  unfold Obligations.CommandsAreStateless
  intro w s s' hs hs' hreads
  refine ⟨_, _, hostCommand_ready w s hs, hostCommand_ready w s' hs', ?_⟩
  rw [endingOf_eq_of_readsAgree hreads]
  obtain ⟨hcode, herrpos, hobuf, holen, hflag⟩ := State.settle_results ((s.setCmd w).setIbuf (operandAfter w s))
    ((s'.setCmd w).setIbuf (operandAfter w s')) (endingOf w s')
  refine ⟨hcode, herrpos, hobuf, holen, hflag, ?_⟩
  rintro rfl
  simpa using operandAfter_rev_eq_of_readsAgree hreads

end Sys2Proof.Machine
end

section
/-! The decoder (30_encoding.md R91) and the reserved words (R94): a word is `RSV ++ OP`, so its fields are the quotient
and the remainder by 16, and it selects an operation just when the quotient is 0 and the remainder is in the map. -/

namespace Sys2Proof.Machine

/-! ### The fields of a command word as numbers -/

theorem rsvField_toNat (w : Byte) : (rsvField w).toNat = w.toNat / 16 := by
  have hw : w.toNat < 256 := w.isLt
  simp only [rsvField, BitVec.extractLsb'_toNat, Nat.shiftRight_eq_div_pow]
  omega

theorem opField_toNat (w : Byte) : (opField w).toNat = w.toNat % 16 := by
  simp [opField]

theorem rsvField_eq_zero_iff (w : Byte) : rsvField w = 0 ↔ w.toNat / 16 = 0 := by
  rw [← rsvField_toNat, ← BitVec.toNat_inj]
  rfl

/-- The operation values of the map are 1 to 11 (30_encoding.md R92). -/
theorem exists_decodeOp_eq_some_iff (op : BitVec 4) :
    (∃ i, decodeOp op = some i) ↔ 1 ≤ op.toNat ∧ op.toNat ≤ 11 := by
  rw [← Option.isSome_iff_exists]
  revert op
  decide

/-! ### Which words select an operation -/

@[simp] theorem decode_encode (i : Instr) : decode (encode i) = .ok i := by
  cases i <;> rfl

theorem decode_eq_ok_iff (w : Byte) (i : Instr) : decode w = .ok i ↔ w = encode i := by
  constructor
  · exact fun h => (encode_of_decode h).symm
  · rintro rfl
    exact decode_encode i

/-- The decoder tests the two fields, one after the other (30_encoding.md R91). -/
theorem decode_eq_ok_iff_fields (w : Byte) (i : Instr) :
    decode w = .ok i ↔ rsvField w = 0 ∧ decodeOp (opField w) = some i := by
  unfold decode
  by_cases hrsv : rsvField w = 0
  · rw [if_pos hrsv]
    cases decodeOp (opField w) <;> simp [hrsv]
  · rw [if_neg hrsv]
    simp only [hrsv, reduceCtorEq, false_and]

theorem exists_decode_eq_ok_iff (w : Byte) :
    (∃ i, decode w = .ok i) ↔ w.toNat / 16 = 0 ∧ 1 ≤ w.toNat % 16 ∧ w.toNat % 16 ≤ 11 := by
  simp only [decode_eq_ok_iff_fields, exists_and_left, exists_decodeOp_eq_some_iff, rsvField_eq_zero_iff,
    opField_toNat]

/-- The decoder is total: a word that selects no operation is reserved. -/
theorem exists_decode_eq_error_iff_not_ok (w : Byte) :
    (∃ e, decode w = .error e) ↔ ¬ ∃ i, decode w = .ok i := by
  cases decode w <;> simp

theorem exists_decode_eq_error_iff (w : Byte) :
    (∃ e, decode w = .error e) ↔ 16 ≤ w.toNat ∨ w.toNat ∈ [0x0, 0xC, 0xD, 0xE, 0xF] := by
  rw [exists_decode_eq_error_iff_not_ok, exists_decode_eq_ok_iff]
  simp only [List.mem_cons, List.not_mem_nil, or_false]
  omega

/-- Settles O4: `encode` is the inverse of `decode`, and the ranges of words are those of the two fields. -/
theorem decoderIsExact : Obligations.DecoderIsExact := by
  unfold Obligations.DecoderIsExact
  exact ⟨rfl, decode_eq_ok_iff, exists_decode_eq_ok_iff, exists_decode_eq_error_iff⟩

/-! ### A reserved word written to `CMD` -/

/-- A reserved word leaves `IBUF` as it was and raises `E_ILLEGAL` at 0 (30_encoding.md R94). -/
theorem hostCommand_reserved {w : Byte} {e : DecodeError} (hd : decode w = .error e) (s : State)
    (h : s.phase = .ready) : hostCommand w s = .next ((s.setCmd w).raise .illegal 0) := by
  rw [hostCommand_ready w s h, operandAfter_reserved hd, endingOf_reserved hd]
  rfl

/-- Settles O39: the step is the write of `CMD`, and a reserved word ends as the error entry for `E_ILLEGAL`. -/
theorem reservedWordFails : Obligations.ReservedWordFails := by
  unfold Obligations.ReservedWordFails
  intro s w rest hready hpending hreserved
  obtain ⟨e, hd⟩ := (exists_decode_eq_error_iff w).mpr hreserved
  rw [step_writeCmd s w rest hpending, hostCommand_reserved hd (s.setPending rest) hready]
  rfl

end Sys2Proof.Machine
end

section
/-! The hash commands (41_hash.md R123 to R125): in READY a command stores its word and settles its ending; the ending of
DHASHW turns on whether the window lies inside the operand. -/

namespace Sys2Proof.Machine

/-! ### A command while READY -/

theorem exec_ready (i : Instr) (s : State) (h : s.phase = .ready) :
    exec i s = .next (((s.setCmd (encode i)).setIbuf (commandOperand i s)).settle (commandEnding i s)) :=
  (exec_eq_runOperation i s).trans (runOperation_ready _ _ _ s h)

/-- Every command but REV leaves the operand as it is (20_memory.md R75). -/
theorem exec_ready_of_ne_rev {i : Instr} (hi : i ≠ .rev) (s : State) (h : s.phase = .ready) :
    exec i s = .next ((s.setCmd (encode i)).settle (commandEnding i s)) := by
  have hoperand : commandOperand i s = s.ibuf := by
    cases i
    case rev => exact absurd rfl hi
    all_goals rfl
  rw [exec_ready i s h, hoperand]
  rfl

/-! ### The ending of DHASHW -/

theorem endingDhashw_of_inside (d : Digests) {space : List Byte} {off len : Nat} (h : off + len ≤ space.length) :
    endingDhashw d space off len = .complete (dh d (memRead space off len)) false :=
  if_pos (decide_eq_true h)

theorem endingDhashw_of_outside (d : Digests) {space : List Byte} {off len : Nat} (h : space.length < off + len) :
    endingDhashw d space off len = .raise .window 0 :=
  if_neg (by simpa [windowInside] using h)

/-! ### The hash commands while READY -/

theorem exec_dhash_ready (s : State) (h : s.phase = .ready) :
    exec .dhash s = .next ((s.setCmd 0x05).complete (dh Config.digests s.ibuf) false) :=
  exec_ready_of_ne_rev (by decide) s h

theorem exec_idhash_ready (s : State) (h : s.phase = .ready) :
    exec .idhash s = .next ((s.setCmd 0x06).complete (idh Config.digests s.ibuf) false) :=
  exec_ready_of_ne_rev (by decide) s h

theorem exec_dhashw_ready (s : State) (h : s.phase = .ready) :
    exec .dhashw s =
      .next ((s.setCmd 0x0B).settle (endingDhashw Config.digests s.ibuf s.off.toNat s.len.toNat)) :=
  exec_ready_of_ne_rev (by decide) s h

/-- Settles O11: the ending of DHASH is `complete(DH(IBUF))`, and `complete` writes no operand register. -/
theorem dhashCompletes : Obligations.DhashCompletes := by
  unfold Obligations.DhashCompletes
  intro s hready
  rw [exec_dhash_ready s hready]
  rfl

/-- Settles O12: the ending of IDHASH is `complete(IDH(IBUF))`, and `complete` writes no operand register. -/
theorem idhashCompletes : Obligations.IdhashCompletes := by
  unfold Obligations.IdhashCompletes
  intro s hready
  rw [exec_idhash_ready s hready]
  rfl

/-- Settles O13: the window lies inside the operand or it does not, and DHASHW completes or raises `E_WINDOW`. -/
theorem dhashwOutcomes : Obligations.DhashwOutcomes := by
  unfold Obligations.DhashwOutcomes
  intro s hready
  rw [exec_dhashw_ready s hready]
  constructor
  case left =>
    intro hinside
    rw [endingDhashw_of_inside _ hinside]
    rfl
  case right =>
    intro houtside
    rw [endingDhashw_of_outside _ houtside]
    rfl

end Sys2Proof.Machine
end

section
/-! The Base-58 commands (42_base58.md R140 to R145): the equations of `enc` and `dec`, the scan of a text as one that
starts at its first character, and the two endings of B58DEC. -/

namespace Sys2Proof.Machine

/-! ### The equations of `enc` and `dec` -/

@[simp] theorem digits58_zero : digits58 0 = [] := rfl

/-- The last base-58 digit is the remainder, and the digits before it are those of the quotient. -/
theorem digits58_pos (n : Nat) (hn : 0 < n) : digits58 n = digits58 (n / 58) ++ [Fin.ofNat 58 (n % 58)] := by
  have hlast : Fin.ofNat 58 (n % 58) = Fin.ofNat 58 n := Fin.ext (Nat.mod_mod n 58)
  rw [hlast]
  exact digits_pos 58 (by omega) n hn

/-- Leading zero bytes have no value. -/
theorem be_drop_lzb (b : List Byte) : be (b.drop (lzb b)) = be b := by
  rw [← umin_be, be_umin]

@[simp] theorem val58_nil (t : Tables) : val58 t [] = 0 := rfl

theorem val58_append (t : Tables) (s : List Byte) {c : Byte} {i : Fin Config.base} (h : lookup t c = some i) :
    val58 t (s ++ [c]) = 58 * val58 t s + i.val := by
  simp [val58, List.foldl_append, h]

/-- Settles O2: `digits58` is `digits` to the base 58, and a value does not see the leading zero bytes. -/
theorem encodingFunction : Obligations.EncodingFunction := by
  unfold Obligations.EncodingFunction
  exact ⟨digits58_zero, digits58_pos, fun _ _ => rfl, fun b => (be_drop_lzb b).symm⟩

/-! ### Decoding a text -/

/-- The zero-symbol is the digit 0. -/
theorem lookup_zsym {t : Tables} (ht : TablesOk t) : lookup t (zsym t.alphabet) = some 0 := ht.indexed 0

/-- Zero-symbols in front leave the value at 0 and move the position on. -/
theorem scanDigits_replicate_zsym {t : Tables} (ht : TablesOk t) (m k : Nat) (s : List Byte) :
    scanDigits t k 0 (List.replicate m (zsym t.alphabet) ++ s) = scanDigits t (k + m) 0 s := by
  induction m generalizing k with
  | zero => rfl
  | succ m ih =>
    calc scanDigits t k 0 (List.replicate (m + 1) (zsym t.alphabet) ++ s)
        = scanDigits t (k + 1) 0 (List.replicate m (zsym t.alphabet) ++ s) := by
          simp [List.replicate_succ, scanDigits, lookup_zsym ht]
      _ = scanDigits t (k + (m + 1)) 0 s := by rw [ih, Nat.add_right_comm, Nat.add_assoc]

/-- The scan after the leading zero-symbols is the scan of the whole text. -/
theorem scanDigits_drop_lzc {t : Tables} (ht : TablesOk t) (s : List Byte) :
    scanDigits t (lzc t.alphabet s) 0 (s.drop (lzc t.alphabet s)) = scanDigits t 0 0 s := by
  calc scanDigits t (lzc t.alphabet s) 0 (s.drop (lzc t.alphabet s))
      = scanDigits t 0 0 (List.replicate (lzc t.alphabet s) (zsym t.alphabet) ++ s.drop (lzc t.alphabet s)) := by
        rw [scanDigits_replicate_zsym ht, Nat.zero_add]
    _ = scanDigits t 0 0 s := by rw [lzc, ← take_leading, List.take_append_drop]

/-- Decoding stops at the leftmost character outside the alphabet and nowhere else. -/
theorem decodeText_eq_error_iff {t : Tables} (ht : TablesOk t) (s : List Byte) (k : Nat) :
    decodeText t s = .error k ↔ leftmostAt (fun c => lookup t c = none) s k := by
  have hscan : decodeText t s = .error k ↔ scanDigits t 0 0 s = .error k := by
    rw [decodeText, scanDigits_drop_lzc ht]
    cases scanDigits t 0 0 s <;> simp
  simp [hscan, scanDigits_error, leftmostAt]

/-- A text over the alphabet decodes to `dec`, with the value of what follows the leading zero-symbols. -/
theorem decodeText_of_overAlphabet {t : Tables} {s : List Byte} (h : overAlphabet t s) :
    decodeText t s = .ok (dec t s) := by
  rw [decodeText, scanDigits_ok t _ fun c hc => h c (List.mem_of_mem_drop hc)]
  rfl

/-- A sequence with a bad element has a leftmost one. -/
theorem exists_leftmostAt {bad : Byte → Prop} {s : List Byte} (h : ∃ c ∈ s, bad c) : ∃ k, leftmostAt bad s k := by
  classical
  obtain ⟨c, hmem, hbad⟩ := h
  obtain ⟨k, hk⟩ := List.mem_iff_getElem?.mp hmem
  have hsome : ∃ k c, s[k]? = some c ∧ bad c := ⟨k, c, hk, hbad⟩
  exact ⟨Nat.find hsome, Nat.find_spec hsome, fun j x hj hx hb => Nat.find_min hsome hj ⟨x, hx, hb⟩⟩

/-! ### The Base-58 commands while READY -/

theorem exec_b58enc_ready (s : State) (h : s.phase = .ready) :
    exec .b58enc s = .next ((s.setCmd 0x01).complete (enc s.tables.alphabet s.ibuf) false) :=
  exec_ready_of_ne_rev (by decide) s h

theorem exec_b58dec_ready (s : State) (h : s.phase = .ready) :
    exec .b58dec s = .next ((s.setCmd 0x02).settle (endingB58dec s.tables s.ibuf)) :=
  exec_ready_of_ne_rev (by decide) s h

theorem exec_b58dec_of_overAlphabet (s : State) (h : s.phase = .ready) (hs : overAlphabet s.tables s.ibuf) :
    exec .b58dec s = .next ((s.setCmd 0x02).complete (dec s.tables s.ibuf) false) := by
  rw [exec_b58dec_ready s h, endingB58dec, decodeText_of_overAlphabet hs]
  rfl

theorem exec_b58dec_of_leftmostAt (s : State) (h : s.phase = .ready) (ht : TablesOk s.tables) {k : Nat}
    (hk : leftmostAt (fun c => lookup s.tables c = none) s.ibuf k) :
    exec .b58dec s = .next ((s.setCmd 0x02).raise .b58Char k) := by
  rw [exec_b58dec_ready s h, endingB58dec, (decodeText_eq_error_iff ht s.ibuf k).mpr hk]
  rfl

/-- Settles O3: `dec` is written as its equation, `val58` grows by one digit for each character, and a text outside the
alphabet has a leftmost bad character, at which B58DEC raises. -/
theorem decodingFunction : Obligations.DecodingFunction := by
  unfold Obligations.DecodingFunction
  refine ⟨fun _ _ => rfl, val58_nil, fun T t c i => val58_append T t, fun s hready htables hbad => ?_⟩
  obtain ⟨k, hk⟩ := exists_leftmostAt hbad
  exact ⟨_, exec_b58dec_of_leftmostAt s hready htables hk, rfl, rfl⟩

/-- Settles O18: the text is over the alphabet, or it has a leftmost bad character, and `complete` and `raise` write no
operand register. -/
theorem b58decOutcomes : Obligations.B58decOutcomes := by
  unfold Obligations.B58decOutcomes
  intro s hready htables
  constructor
  case left =>
    intro hover
    rw [exec_b58dec_of_overAlphabet s hready hover]
    rfl
  case right =>
    intro k hk
    rw [exec_b58dec_of_leftmostAt s hready htables hk]
    rfl

/-- Settles O17: the ending of B58ENC is `complete(enc(IBUF))`, and `complete` writes no operand register. -/
theorem b58encCompletes : Obligations.B58encCompletes := by
  unfold Obligations.B58encCompletes
  intro s hready
  rw [exec_b58enc_ready s hready]
  rfl

end Sys2Proof.Machine
end

section
/-! Checksummed payloads (43_checksum.md R170 to R172): the two parts of `p ++ cs4(p)`, validity as an equation of its
last four bytes, and the ending of B58CDEC by what the text decodes to. -/

namespace Sys2Proof.Machine

/-! ### The parts of a checksummed payload -/

@[simp] theorem payloadPart_append_cs4 (d : Digests) (p : List Byte) : payloadPart (p ++ cs4 d p) = p := by
  simp [payloadPart_eq_take]

@[simp] theorem checksumPart_append_cs4 (d : Digests) (p : List Byte) : checksumPart (p ++ cs4 d p) = cs4 d p := by
  simp [checksumPart_eq_drop]

theorem validPayload_iff (d : Digests) (b : List Byte) :
    validPayload d b = true ↔ 4 ≤ b.length ∧ checksumPart b = cs4 d (payloadPart b) := by
  rw [validPayload, Bool.and_eq_true, decide_eq_true_iff, decide_eq_true_iff]

theorem validPayload_append_cs4 (d : Digests) (p : List Byte) : validPayload d (p ++ cs4 d p) = true := by
  have hlength : 4 ≤ (p ++ cs4 d p).length := by simp
  have hchecksum : checksumPart (p ++ cs4 d p) = cs4 d (payloadPart (p ++ cs4 d p)) := by simp
  exact (validPayload_iff d _).mpr ⟨hlength, hchecksum⟩

/-- Settles O25: `memRead` at either end is `take` and `drop`, and the parts of `p ++ cs4(p)` are `p` and `cs4(p)`. -/
theorem checksummedPayload : Obligations.ChecksummedPayload := by
  unfold Obligations.ChecksummedPayload
  intro d p
  have hlength : (p ++ cs4 d p).length = p.length + 4 := by simp
  refine ⟨cs4_eq_take d p, cs4_length d p, hlength, validPayload_append_cs4 d p, fun b => ?_⟩
  rw [validPayload_iff, checksumPart_eq_drop, payloadPart_eq_take]

/-! ### The ending of B58CDEC -/

theorem endingB58cdec_of_leftmostAt (d : Digests) {t : Tables} (ht : TablesOk t) {s : List Byte} {k : Nat}
    (hk : leftmostAt (fun c => lookup t c = none) s k) : endingB58cdec d t s = .raise .b58Char k := by
  rw [endingB58cdec, (decodeText_eq_error_iff ht s k).mpr hk]

/-- The checks that follow the decoding of a text over the alphabet (43_checksum.md R172). -/
theorem endingB58cdec_of_overAlphabet (d : Digests) {t : Tables} {s : List Byte} (hs : overAlphabet t s) :
    endingB58cdec d t s =
      if (dec t s).length < 4 then .raise .csShort 0
      else if checksumPart (dec t s) = cs4 d (payloadPart (dec t s)) then .complete (payloadPart (dec t s)) false
      else .raise .csMismatch 0 := by
  rw [endingB58cdec, decodeText_of_overAlphabet hs]

/-! ### The checksum commands while READY -/

theorem exec_b58cenc_ready (s : State) (h : s.phase = .ready) :
    exec .b58cenc s =
      .next ((s.setCmd 0x03).complete (enc s.tables.alphabet (s.ibuf ++ cs4 Config.digests s.ibuf)) false) :=
  exec_ready_of_ne_rev (by decide) s h

theorem exec_b58cdec_ready (s : State) (h : s.phase = .ready) :
    exec .b58cdec s = .next ((s.setCmd 0x04).settle (endingB58cdec Config.digests s.tables s.ibuf)) :=
  exec_ready_of_ne_rev (by decide) s h

/-- The checksum under the block's own digest units, as the double hash written out. -/
theorem cs4_digests (p : List Byte) :
    cs4 Config.digests p = (Config.h256 (Config.h256 p).toList).toList.take 4 :=
  cs4_eq_take Config.digests p

/-- Settles O27: B58CDEC settles its ending, and that is fixed by the leftmost bad character, or else by the length of
the decoding and then by its last four bytes. -/
theorem b58cdecOutcomes : Obligations.B58cdecOutcomes := by
  unfold Obligations.B58cdecOutcomes
  intro s hready htables
  rw [exec_b58cdec_ready s hready]
  constructor
  case left =>
    intro k hk
    rw [endingB58cdec_of_leftmostAt _ htables hk]
    rfl
  case right =>
    rintro d hover rfl
    rw [endingB58cdec_of_overAlphabet _ hover, checksumPart_eq_drop, payloadPart_eq_take, cs4_digests, ite_not]
    split
    case isTrue hshort => rfl
    case isFalse hlength =>
      split
      case isTrue hvalid => rfl
      case isFalse hmismatch => rfl

/-- Settles O26: the ending of B58CENC is `complete(enc(p ++ cs4(p)))`, and `complete` writes no operand register. -/
theorem b58cencCompletes : Obligations.B58cencCompletes := by
  unfold Obligations.B58cencCompletes
  intro s hready
  rw [exec_b58cenc_ready s hready, cs4_digests]
  rfl

end Sys2Proof.Machine
end

section
/-! The byte utilities REV and ULT64 (44_byteops.md R190, R193): REV leaves the reversed operand in both buffers, and
the signed comparison of ULT64, inverted when the signs differ, is the unsigned one. -/

namespace Sys2Proof.Machine

/-! ### REV while READY -/

theorem exec_rev_ready (s : State) (h : s.phase = .ready) :
    exec .rev s = .next (((s.setCmd 0x09).setIbuf s.ibuf.reverse).complete s.ibuf.reverse false) :=
  exec_ready .rev s h

/-- A second REV restores the operand and copies it (44_byteops.md R190). -/
theorem exec_rev_twice (s : State) (h : s.phase = .ready) :
    ∃ t u, exec .rev s = .next t ∧ exec .rev t = .next u ∧ u.ibuf = s.ibuf ∧ u.obuf = s.ibuf := by
  refine ⟨_, _, exec_rev_ready s h, exec_rev_ready _ (by simpa using h), ?_, ?_⟩
  · simp
  · simp

/-- No command but REV writes an operand register (44_byteops.md R190). -/
theorem exec_ready_operands_of_ne_rev {i : Instr} (hi : i ≠ .rev) (s : State) (h : s.phase = .ready) :
    ∃ t, exec i s = .next t ∧
      t.ibuf = s.ibuf ∧ t.off = s.off ∧ t.len = s.len ∧ t.opa = s.opa ∧ t.opb = s.opb :=
  ⟨_, exec_ready_of_ne_rev hi s h, by simp⟩

/-- Settles O31: REV settles `complete(rev(IBUF))` over the reversed operand, reversing twice is the identity, and an
ending writes no operand register. -/
theorem revReverses : Obligations.RevReverses := by
  unfold Obligations.RevReverses
  intro s hready
  refine ⟨?reversed, exec_rev_twice s hready, fun i hi => exec_ready_operands_of_ne_rev hi s hready⟩
  case reversed =>
    rw [exec_rev_ready s hready]
    rfl

/-! ### The comparison of ULT64 -/

/-- The document's signed algorithm is the unsigned comparison: a signed and an unsigned comparison differ exactly when
the sign bits do (44_byteops.md R193). -/
theorem lessUnsigned_eq_decide (a b : Word64) : lessUnsigned a b = decide (a.toNat < b.toNat) := by
  have hsigned : decide (a.toInt < b.toInt) = ((a.msb ^^ b.msb) ^^ a.ult b) := by
    rw [← BitVec.slt_eq_decide]
    exact BitVec.slt_eq_ult
  calc lessUnsigned a b = (((a.msb ^^ b.msb) ^^ a.ult b) ^^ (a.msb ^^ b.msb)) := by
        rw [lessUnsigned, hsigned, BitVec.msb_eq_toInt, BitVec.msb_eq_toInt]
    _ = a.ult b := by rw [Bool.xor_comm, ← Bool.xor_assoc, Bool.xor_self, Bool.false_xor]
    _ = decide (a.toNat < b.toNat) := BitVec.ult_eq_decide

theorem exec_ult64_ready (s : State) (h : s.phase = .ready) :
    exec .ult64 s = .next ((s.setCmd 0x0A).complete [] (lessUnsigned s.opa s.opb)) :=
  exec_ready_of_ne_rev (by decide) s h

/-- Settles O36: the ending of ULT64 is `complete([], OPA < OPB)` by the document's algorithm, `complete` writes no
operand register, and the algorithm is the unsigned comparison. -/
theorem ult64Completes : Obligations.Ult64Completes := by
  unfold Obligations.Ult64Completes
  intro s hready
  constructor
  case left =>
    rw [exec_ult64_ready s hready, lessUnsigned_eq_decide]
    rfl
  case right => exact (lessUnsigned_eq_decide s.opa s.opb).symm

end Sys2Proof.Machine
end

section
/-! The error entry (60_exceptions.md R224): which errors the ending of a command word can be, and that a word that
fails leaves the operand as it was, so that nothing but the entry is written. -/

namespace Sys2Proof.Machine

/-! ### The errors of an ending -/

/-- An ending is a success or one of `errors`, and only the two character errors have a position (60_exceptions.md
R221). -/
def Ending.FailsWithin (errors : List ErrorKind) : Ending → Prop
  | .complete _ _ => True
  | .raise e pos => e ∈ errors ∧ (e ≠ .b58Char → e ≠ .hexDigit → pos = 0)

theorem Ending.failsWithin_complete (errors : List ErrorKind) (out : List Byte) (flag : Bool) :
    (Ending.complete out flag).FailsWithin errors := trivial

/-- An error with no position. -/
theorem Ending.failsWithin_raise_zero {errors : List ErrorKind} {e : ErrorKind} (h : e ∈ errors) :
    (Ending.raise e 0).FailsWithin errors := ⟨h, fun _ _ => rfl⟩

theorem Ending.failsWithin_b58Char {errors : List ErrorKind} (h : .b58Char ∈ errors) (pos : Nat) :
    (Ending.raise .b58Char pos).FailsWithin errors := ⟨h, fun hne _ => absurd rfl hne⟩

theorem Ending.failsWithin_hexDigit {errors : List ErrorKind} (h : .hexDigit ∈ errors) (pos : Nat) :
    (Ending.raise .hexDigit pos).FailsWithin errors := ⟨h, fun _ hne => absurd rfl hne⟩

theorem endingB58dec_failsWithin (t : Tables) (s : List Byte) : (endingB58dec t s).FailsWithin [.b58Char] := by
  unfold endingB58dec
  split
  case h_1 k hbad => exact Ending.failsWithin_b58Char (by decide) k
  case h_2 d hgood => exact Ending.failsWithin_complete _ _ _

theorem endingB58cdec_failsWithin (d : Digests) (t : Tables) (s : List Byte) :
    (endingB58cdec d t s).FailsWithin [.b58Char, .csShort, .csMismatch] := by
  unfold endingB58cdec
  split
  case h_1 k hbad => exact Ending.failsWithin_b58Char (by decide) k
  case h_2 b hgood =>
    split
    case isTrue hshort => exact Ending.failsWithin_raise_zero (by decide)
    case isFalse hlength =>
      split
      case isTrue hvalid => exact Ending.failsWithin_complete _ _ _
      case isFalse hmismatch => exact Ending.failsWithin_raise_zero (by decide)

theorem endingHexdec_failsWithin (both : Bool) (s : List Byte) :
    (endingHexdec both s).FailsWithin [.hexLen, .hexDigit] := by
  unfold endingHexdec
  split
  case isTrue hodd => exact Ending.failsWithin_raise_zero (by decide)
  case isFalse heven =>
    split
    case h_1 k hbad => exact Ending.failsWithin_hexDigit (by decide) k
    case h_2 hgood => exact Ending.failsWithin_complete _ _ _

theorem endingDhashw_failsWithin (d : Digests) (space : List Byte) (off len : Nat) :
    (endingDhashw d space off len).FailsWithin [.window] := by
  unfold endingDhashw
  split
  case isTrue hinside => exact Ending.failsWithin_complete _ _ _
  case isFalse houtside => exact Ending.failsWithin_raise_zero (by decide)

/-- A command ends in the errors of its row (30_encoding.md R92): four commands can fail, the other seven complete. -/
theorem commandEnding_failsWithin (i : Instr) (s : State) :
    (commandEnding i s).FailsWithin (possibleErrors (encode i)) := by
  cases i
  case b58dec => exact endingB58dec_failsWithin _ _
  case b58cdec => exact endingB58cdec_failsWithin _ _ _
  case hexdec => exact endingHexdec_failsWithin _ _
  case dhashw => exact endingDhashw_failsWithin _ _ _ _
  all_goals exact Ending.failsWithin_complete _ _ _

theorem possibleErrors_reserved {w : Byte} {e : DecodeError} (h : decode w = .error e) :
    possibleErrors w = [.illegal] := by
  simp only [possibleErrors, h]

/-- A command word, selected or reserved, ends in the errors it can end in. -/
theorem endingOf_failsWithin (w : Byte) (s : State) : (endingOf w s).FailsWithin (possibleErrors w) := by
  cases hd : decode w with
  | error e =>
    rw [endingOf_reserved hd, possibleErrors_reserved hd]
    exact Ending.failsWithin_raise_zero (by decide)
  | ok i =>
    rw [endingOf_command hd, ← encode_of_decode hd]
    exact commandEnding_failsWithin i s

/-! ### A command word that fails -/

/-- REV alone writes the operand, and REV completes. -/
theorem commandOperand_of_raise {i : Instr} {s : State} {e : ErrorKind} {pos : Nat}
    (h : commandEnding i s = .raise e pos) : commandOperand i s = s.ibuf := by
  cases i
  case rev => cases h
  all_goals rfl

theorem operandAfter_of_raise {w : Byte} {s : State} {e : ErrorKind} {pos : Nat}
    (h : endingOf w s = .raise e pos) : operandAfter w s = s.ibuf := by
  cases hd : decode w with
  | error _ => exact congrFun (operandAfter_reserved hd) s
  | ok i =>
    rw [endingOf_command hd] at h
    rw [operandAfter_command hd, commandOperand_of_raise h]

/-- A word that fails is stored in `CMD`, and over that the error entry is all there is. -/
theorem hostCommand_of_raise {w : Byte} {s : State} {e : ErrorKind} {pos : Nat} (hready : s.phase = .ready)
    (h : endingOf w s = .raise e pos) : hostCommand w s = .next ((s.setCmd w).raise e pos) := by
  rw [hostCommand_ready w s hready, operandAfter_of_raise h, h]
  rfl

/-- Settles O40: a word completes, with code 0, or it raises, and then the next state is the entry for an error that
`endingOf_failsWithin` bounds. -/
theorem errorEntry : Obligations.ErrorEntry := by
  unfold Obligations.ErrorEntry
  refine ⟨fun _ _ _ => rfl, fun w s hready => ?_⟩
  cases hend : endingOf w s with
  | complete out flag =>
    refine ⟨_, hostCommand_ready w s hready, fun hcode => absurd ?_ hcode⟩
    rw [hend]
    rfl
  | raise e pos =>
    have hwithin := endingOf_failsWithin w s
    rw [hend] at hwithin
    obtain ⟨hpossible, hpos⟩ := hwithin
    exact ⟨_, hostCommand_of_raise hready hend, fun _ => ⟨e, hpossible, pos, rfl, hpos⟩⟩

end Sys2Proof.Machine
end

section
/-! The codec is a bijection (42_base58.md section 3): the digit texts of `enc` start with no zero-symbol, and `val58`
and `digits58` undo each other up to the leading zero-symbols, as `be` and `umin` do up to the leading zero bytes. -/

namespace Sys2Proof.Machine

/-! ### Leading counts -/

/-- Nothing is stripped from a sequence that equals what is left of it. -/
theorem leading_eq_zero_of_drop {c : Byte} {s : List Byte} (h : s.drop (leading c s) = s) : leading c s = 0 := by
  have hlength : s.length - leading c s = s.length := by rw [← List.length_drop, h]
  have hle : leading c s ≤ s.length := leading_le c s
  omega

/-- Elements equal to `c` in front of a sequence that does not begin with `c`. -/
theorem leading_replicate_append_of_leading_zero {c : Byte} (k : Nat) {t : List Byte} (h : leading c t = 0) :
    leading c (List.replicate k c ++ t) = k :=
  leading_replicate_append c k t fun x hx => getElem?_leading_ne c t x (by rw [h]; exact hx)

theorem replicate_leading_append_drop (c : Byte) (s : List Byte) :
    List.replicate (leading c s) c ++ s.drop (leading c s) = s := by
  rw [← take_leading, List.take_append_drop]

/-! ### The byte side -/

theorem lzb_umin (n : Nat) : lzb (umin n) = 0 :=
  leading_eq_zero_of_drop (c := 0) (by rw [← lzb, ← umin_be, be_umin])

@[simp] theorem lzb_zeros_append_umin (k n : Nat) : lzb (zeros k ++ umin n) = k :=
  leading_replicate_append_of_leading_zero k (lzb_umin n)

@[simp] theorem be_zeros_append_umin (k n : Nat) : be (zeros k ++ umin n) = n := by
  have hdrop : (zeros k ++ umin n).drop k = umin n := by simp [zeros]
  rw [← be_drop_lzb, lzb_zeros_append_umin, hdrop, be_umin]

/-- A sequence is its leading zero bytes and the shortest sequence of its value. -/
theorem zeros_append_umin_be (b : List Byte) : zeros (lzb b) ++ umin (be b) = b := by
  rw [umin_be]
  exact replicate_leading_append_drop 0 b

/-! ### The text side -/

/-- The characters of the base-58 digits of `n`, the last part of `enc` (42_base58.md R140). -/
def digitText (alphabet : Vector Byte Config.base) (n : Nat) : List Byte := (digits58 n).map alphabet.get

theorem enc_eq (alphabet : Vector Byte Config.base) (b : List Byte) :
    enc alphabet b = List.replicate (lzb b) (zsym alphabet) ++ digitText alphabet (be b) := rfl

@[simp] theorem digitText_zero (alphabet : Vector Byte Config.base) : digitText alphabet 0 = [] := rfl

theorem digitText_pos (alphabet : Vector Byte Config.base) (n : Nat) (hn : 0 < n) :
    digitText alphabet n = digitText alphabet (n / 58) ++ [alphabet.get (Fin.ofNat 58 (n % 58))] := by
  rw [digitText, digits58_pos n hn, List.map_append]
  rfl

/-- A further digit is the last one of the longer text, unless the whole value is 0. -/
theorem digitText_append_digit (alphabet : Vector Byte Config.base) (n : Nat) (i : Fin Config.base)
    (h : 0 < 58 * n + i.val) : digitText alphabet (58 * n + i.val) = digitText alphabet n ++ [alphabet.get i] := by
  have hi : i.val < 58 := i.isLt
  have hdiv : (58 * n + i.val) / 58 = n := by omega
  have hlast : Fin.ofNat 58 ((58 * n + i.val) % 58) = i := Fin.ext (by simp only [Fin.val_ofNat]; omega)
  rw [digitText_pos _ _ h, hdiv, hlast]

section
variable {t : Tables} (ht : TablesOk t)
include ht

@[simp] theorem val58_digitText (n : Nat) : val58 t (digitText t.alphabet n) = n := by
  induction n using Nat.strong_induction_on with
  | _ n ih =>
    rcases Nat.eq_zero_or_pos n with rfl | hn
    · rfl
    · rw [digitText_pos _ n hn, val58_append t _ (ht.indexed _), ih (n / 58) (by omega)]
      simp only [Fin.val_ofNat, Config.base]
      omega

theorem digitText_eq_nil (n : Nat) : digitText t.alphabet n = [] ↔ n = 0 :=
  ⟨fun h => by rw [← val58_digitText ht n, h, val58_nil], fun h => by rw [h, digitText_zero]⟩

theorem lookup_get_ne_none (i : Fin Config.base) : lookup t (t.alphabet.get i) ≠ none := by
  rw [ht.indexed i]
  exact Option.some_ne_none i

theorem overAlphabet_digitText (n : Nat) : overAlphabet t (digitText t.alphabet n) := by
  intro c hc
  obtain ⟨i, _, rfl⟩ := List.mem_map.mp hc
  exact lookup_get_ne_none ht i

theorem overAlphabet_enc (b : List Byte) : overAlphabet t (enc t.alphabet b) := by
  intro c hc
  rcases List.mem_append.mp hc with hzero | hdigit
  · rw [List.eq_of_mem_replicate hzero]
    exact lookup_get_ne_none ht 0
  · exact overAlphabet_digitText ht (be b) c hdigit

/-- The digits of the value of a text are the text but for its leading zero-symbols, which have no value. -/
theorem digitText_val58 {s : List Byte} (hs : overAlphabet t s) :
    digitText t.alphabet (val58 t s) = s.drop (lzc t.alphabet s) := by
  rw [lzc, drop_leading]
  induction s using List.reverseRecOn with
  | nil => rfl
  | append_singleton s c ih =>
    obtain ⟨i, hi⟩ := Option.ne_none_iff_exists'.mp (hs c (by simp))
    obtain rfl : t.alphabet.get i = c := ht.spelled c i hi
    rw [val58_append t s hi, List.dropWhile_append, ← ih fun x hx => hs x (by simp [hx])]
    rcases Nat.eq_zero_or_pos (58 * val58 t s + i.val) with hzero | hpos
    · have hval : val58 t s = 0 := by omega
      obtain rfl : i = 0 := Fin.ext (show i.val = 0 by omega)
      simp [hval, zsym]
    · rw [digitText_append_digit _ _ _ hpos]
      rcases Nat.eq_zero_or_pos (val58 t s) with hval | hval
      · have hne : t.alphabet.get i ≠ t.alphabet.get 0 := fun h => by
          have hi0 : i = 0 := ht.distinct i 0 h
          simp [hval, hi0] at hpos
        simp [hval, zsym, hne]
      · rw [if_neg]
        rw [List.isEmpty_iff, digitText_eq_nil ht]
        omega

theorem lzc_digitText (n : Nat) : lzc t.alphabet (digitText t.alphabet n) = 0 := by
  refine leading_eq_zero_of_drop ?_
  rw [← lzc, ← digitText_val58 ht (overAlphabet_digitText ht n), val58_digitText ht]

theorem lzc_enc (b : List Byte) : lzc t.alphabet (enc t.alphabet b) = lzb b :=
  leading_replicate_append_of_leading_zero (lzb b) (lzc_digitText ht (be b))

/-! ### The two functions undo each other -/

/-- 42_base58.md section 3 (a), as an equation of functions. -/
theorem dec_enc (b : List Byte) : dec t (enc t.alphabet b) = b := by
  have hrest : (enc t.alphabet b).drop (lzb b) = digitText t.alphabet (be b) := by simp [enc_eq]
  rw [dec, lzc_enc ht, hrest, val58_digitText ht, zeros_append_umin_be]

theorem val58_drop_lzc {s : List Byte} (hs : overAlphabet t s) :
    val58 t (s.drop (lzc t.alphabet s)) = val58 t s := by
  rw [← digitText_val58 ht hs, val58_digitText ht]

/-- 42_base58.md section 3 (b), as an equation of functions. -/
theorem enc_dec {s : List Byte} (hs : overAlphabet t s) : enc t.alphabet (dec t s) = s := by
  rw [enc_eq, dec, lzb_zeros_append_umin, be_zeros_append_umin, val58_drop_lzc ht hs, digitText_val58 ht hs]
  exact replicate_leading_append_drop _ s

end

/-- Settles O21: B58DEC runs on a text over the alphabet, and `dec` undoes `enc`. -/
theorem base58RoundTrip : Obligations.Base58RoundTrip := by
  unfold Obligations.Base58RoundTrip
  intro s hready htables
  exact ⟨_, _, exec_b58enc_ready s hready, exec_b58dec_of_overAlphabet _ hready (overAlphabet_enc htables s.ibuf), rfl,
    dec_enc htables s.ibuf⟩

/-- Settles O22: the text is over the alphabet, so B58DEC completes with `dec`, which `enc` undoes. -/
theorem base58TextRoundTrip : Obligations.Base58TextRoundTrip := by
  unfold Obligations.Base58TextRoundTrip
  intro s hready htables hover
  exact ⟨_, _, exec_b58dec_of_overAlphabet s hready hover, rfl, exec_b58enc_ready _ hready, enc_dec htables hover⟩

/-- Settles O23: each law follows from `dec_enc` or from the leading counts. -/
theorem base58Laws : Obligations.Base58Laws := by
  unfold Obligations.Base58Laws
  intro t ht
  refine ⟨?injective, lzc_enc ht, fun s _ => lzb_zeros_append_umin _ _, rfl, rfl,
    fun b => ⟨overAlphabet_enc ht b, ?spelled⟩⟩
  case injective =>
    intro b b' h
    rw [← dec_enc ht b, h, dec_enc ht b']
  case spelled =>
    intro c hc
    obtain ⟨i, hi⟩ := Option.ne_none_iff_exists'.mp (overAlphabet_enc ht b c hc)
    exact ⟨i, ht.spelled c i hi⟩

/-! ### The document's step lists -/

/-- The loop appends the digits, least significant first (42_base58.md R142). -/
theorem encodeLoop_eq (alphabet : Vector Byte Config.base) (fuel n : Nat) (acc : List Byte) :
    encodeLoop alphabet fuel n acc = acc ++ (digitsUpTo Config.base fuel n).map alphabet.get := by
  induction fuel generalizing n acc with
  | zero => simp [encodeLoop, digitsUpTo]
  | succ fuel ih =>
    by_cases hn : n = 0
    · simp [encodeLoop, digitsUpTo, hn]
    · simp [encodeLoop, digitsUpTo, hn, ih]

/-- Settles O19: reversing the loop's characters and the zero-symbols after them gives `enc`; the empty sequence, which
the steps treat apart, has neither. -/
theorem encodeStepsComputeEnc : Obligations.EncodeStepsComputeEnc := by
  unfold Obligations.EncodeStepsComputeEnc
  intro alphabet b
  unfold encodeSteps
  split
  case isTrue hempty =>
    obtain rfl := List.eq_nil_of_length_eq_zero hempty
    rfl
  case isFalse => simp [encodeLoop_eq, enc, digits58, digits, List.map_reverse]

/-- The sign-bit correction takes away just the zero byte that the two's complement form may have put in front
(42_base58.md R146). -/
theorem correctSign_eq (lz n : Nat) : correctSign lz n = zeros lz ++ umin n := by
  have hzeros (k : Nat) (s : List Byte) : zeros k ++ 0 :: s = zeros (k + 1) ++ s := by
    simp [zeros, List.replicate_succ']
  have hcorrect (s : List Byte) (hsmin : smin n = 0 :: s) : correctSign lz n = zeros lz ++ s := by
    rw [correctSign, hsmin]
    cases lz with
    | zero => rfl
    | succ k => exact hzeros k s
  rcases Nat.eq_zero_or_pos n with rfl | hn
  · exact hcorrect [] rfl
  · obtain ⟨h, rest, humin, hne⟩ := umin_head_ne_zero n hn
    by_cases htop : h.toNat < 0x80
    · have hsmin : smin n = h :: rest := by simp [smin, humin, htop]
      simp only [correctSign, hsmin, humin]
      exact if_neg hne
    · rw [humin]
      exact hcorrect _ (by simp [smin, humin, htop])

theorem decodeSteps_eq_decodeText (t : Tables) (s : List Byte) : decodeSteps t s = decodeText t s := by
  simp only [decodeSteps, decodeText, correctSign_eq]

/-- Settles O20: the corrected form is the leading zero bytes and the shortest sequence, as in the command's
procedure. -/
theorem decodeStepsComputeDec : Obligations.DecodeStepsComputeDec := by
  unfold Obligations.DecodeStepsComputeDec
  refine ⟨decodeSteps_eq_decodeText, fun t s _ hs => ?_⟩
  rw [decodeSteps_eq_decodeText, decodeText_of_overAlphabet hs]

/-! ### Lengths -/

theorem digits_length_le_iff (base : Nat) [NeZero base] (hb : 2 ≤ base) (n d : Nat) :
    (digits base n).length ≤ d ↔ n < base ^ d := by
  have hlength : (digits base n).length = (Nat.digits base n).length := by
    induction n using Nat.strong_induction_on with
    | _ n ih =>
      rcases Nat.eq_zero_or_pos n with rfl | hn
      · simp
      · rw [digits_pos base hb n hn, Nat.digits_def' hb hn, List.length_append, ih _ (Nat.div_lt_self hn hb)]
        rfl
  rw [hlength, Nat.digits_length_le_iff hb]

theorem digits58_length_le_iff (n d : Nat) : (digits58 n).length ≤ d ↔ n < 58 ^ d :=
  digits_length_le_iff 58 (by decide) n d

theorem umin_length_le_iff (n k : Nat) : (umin n).length ≤ k ↔ n < 256 ^ k := by
  rw [umin, List.length_map]
  exact digits_length_le_iff 256 (by decide) n k

theorem enc_length (alphabet : Vector Byte Config.base) (b : List Byte) :
    (enc alphabet b).length = lzb b + (digits58 (be b)).length := by
  simp [enc]

theorem dec_length (t : Tables) (s : List Byte) :
    (dec t s).length = lzc t.alphabet s + (umin (val58 t (s.drop (lzc t.alphabet s)))).length := by
  simp [dec, zeros]

/-- The digits of a byte sequence are at most two for each byte after the leading zero bytes, as `256 ≤ 58 ^ 2`. -/
theorem enc_length_le (alphabet : Vector Byte Config.base) (b : List Byte) :
    (enc alphabet b).length ≤ 2 * b.length := by
  have hle : lzb b ≤ b.length := leading_le 0 b
  have hvalue : be b < 58 ^ (2 * (b.length - lzb b)) := calc
    be b < 256 ^ (b.length - lzb b) := (umin_length_le_iff _ _).mp (by rw [umin_be, List.length_drop])
    _ ≤ (58 ^ 2) ^ (b.length - lzb b) := Nat.pow_le_pow_left (by decide) _
    _ = 58 ^ (2 * (b.length - lzb b)) := (Nat.pow_mul 58 2 _).symm
  have hdigits := (digits58_length_le_iff _ _).mpr hvalue
  rw [enc_length]
  omega

/-- A character adds one digit to the value, or the digit 0 when it is outside the alphabet. -/
theorem val58_lt (t : Tables) (s : List Byte) : val58 t s < 58 ^ s.length := by
  induction s using List.reverseRecOn with
  | nil => simp
  | append_singleton s c ih =>
    have hdigit : ((lookup t c).map Fin.val).getD 0 < 58 := by
      cases lookup t c with
      | none => decide
      | some i => exact i.isLt
    have hvalue : val58 t (s ++ [c]) = 58 * val58 t s + ((lookup t c).map Fin.val).getD 0 := by
      simp [val58, List.foldl_append]
    rw [hvalue, List.length_append, List.length_singleton, Nat.pow_succ]
    omega

/-- The shortest sequence of a text's value has at most one byte for each character, as `58 ≤ 256`. -/
theorem dec_length_le (t : Tables) (s : List Byte) : (dec t s).length ≤ s.length := by
  have hle : lzc t.alphabet s ≤ s.length := leading_le _ s
  have hvalue : val58 t (s.drop (lzc t.alphabet s)) < 256 ^ (s.length - lzc t.alphabet s) := calc
    _ < 58 ^ (s.drop (lzc t.alphabet s)).length := val58_lt t _
    _ = 58 ^ (s.length - lzc t.alphabet s) := by rw [List.length_drop]
    _ ≤ 256 ^ (s.length - lzc t.alphabet s) := Nat.pow_le_pow_left (by decide) _
  have humin := (umin_length_le_iff _ _).mpr hvalue
  rw [dec_length]
  omega

/-- Settles O24: the number of digits to a base is at most `d` just when the number is below the `d`-th power. -/
theorem base58Lengths : Obligations.Base58Lengths := by
  unfold Obligations.Base58Lengths
  exact ⟨fun n => ⟨(digits58_length_le_iff n _).mp (Nat.le_refl _), fun d => (digits58_length_le_iff n d).mpr⟩,
    fun n => ⟨(umin_length_le_iff n _).mp (Nat.le_refl _), fun k => (umin_length_le_iff n k).mpr⟩,
    fun A b => ⟨enc_length A b, enc_length_le A b⟩, fun T s => ⟨dec_length T s, dec_length_le T s⟩⟩

end Sys2Proof.Machine
end

section
/-! The laws of the checksum commands (43_checksum.md R173): on a text of four decoded bytes or more B58CDEC tells the
valid checksummed payloads from the others, and the text of a B58CENC decodes to its checksummed payload. -/

namespace Sys2Proof.Machine

/-! ### The ending of B58CDEC by validity -/

theorem endingB58cdec_of_valid {d : Digests} {t : Tables} {s : List Byte} (hs : overAlphabet t s)
    (hvalid : validPayload d (dec t s) = true) :
    endingB58cdec d t s = .complete (payloadPart (dec t s)) false := by
  obtain ⟨hlength, hchecksum⟩ := (validPayload_iff d _).mp hvalid
  rw [endingB58cdec_of_overAlphabet d hs, if_neg (by omega), if_pos hchecksum]

theorem endingB58cdec_of_mismatch {d : Digests} {t : Tables} {s : List Byte} (hs : overAlphabet t s)
    (hlength : 4 ≤ (dec t s).length) (hvalid : ¬ validPayload d (dec t s) = true) :
    endingB58cdec d t s = .raise .csMismatch 0 := by
  have hchecksum : ¬ checksumPart (dec t s) = cs4 d (payloadPart (dec t s)) :=
    fun h => hvalid ((validPayload_iff d _).mpr ⟨hlength, h⟩)
  rw [endingB58cdec_of_overAlphabet d hs, if_neg (by omega), if_neg hchecksum]

theorem endingB58cdec_of_short {d : Digests} {t : Tables} {s : List Byte} (hs : overAlphabet t s)
    (hlength : (dec t s).length < 4) : endingB58cdec d t s = .raise .csShort 0 := by
  rw [endingB58cdec_of_overAlphabet d hs, if_pos hlength]

/-- B58CDEC of an encoded sequence of four bytes or more delivers the payload of a valid one. -/
theorem endingB58cdec_enc (d : Digests) {t : Tables} (ht : TablesOk t) {b : List Byte} (hlength : 4 ≤ b.length) :
    endingB58cdec d t (enc t.alphabet b) =
      if validPayload d b = true then .complete (payloadPart b) false else .raise .csMismatch 0 := by
  have hover : overAlphabet t (enc t.alphabet b) := overAlphabet_enc ht b
  split
  case isTrue hvalid => rw [endingB58cdec_of_valid hover (by rwa [dec_enc ht]), dec_enc ht]
  case isFalse hvalid => exact endingB58cdec_of_mismatch hover (by rwa [dec_enc ht]) (by rwa [dec_enc ht])

/-- B58CDEC of an encoded checksummed payload delivers the payload, whatever the digest units are. -/
theorem endingB58cdec_enc_append_cs4 (d : Digests) {t : Tables} (ht : TablesOk t) (p : List Byte) :
    endingB58cdec d t (enc t.alphabet (p ++ cs4 d p)) = .complete p false := by
  rw [endingB58cdec_enc d ht (by simp), if_pos (validPayload_append_cs4 d p), payloadPart_append_cs4]

/-- Settles O28: B58CDEC ends on the text of `p ++ cs4(p)`, which is a valid checksummed payload. -/
theorem checksumRoundTrip : Obligations.ChecksumRoundTrip := by
  unfold Obligations.ChecksumRoundTrip
  intro s hready htables
  refine ⟨_, _, exec_b58cenc_ready s hready, exec_b58cdec_ready _ hready, ?_⟩
  have hending := endingB58cdec_enc_append_cs4 Config.digests htables s.ibuf
  simp only [State.complete_tables, State.complete_obuf, State.setCmd_tables, hending, State.settle_complete,
    State.complete_code, and_self]

/-- Settles O29: a text outside the alphabet raises at its leftmost bad character, a text over it raises when it is too
short or its checksum differs. -/
theorem checksumAcceptsExactly : Obligations.ChecksumAcceptsExactly := by
  unfold Obligations.ChecksumAcceptsExactly
  intro d t s ht
  constructor
  case mp =>
    rintro ⟨p, f, hending⟩
    have hover : overAlphabet t s := by
      by_contra hbad
      obtain ⟨k, hk⟩ := exists_leftmostAt (bad := fun c => lookup t c = none) (s := s)
        (by simpa [overAlphabet] using hbad)
      rw [endingB58cdec_of_leftmostAt d ht hk] at hending
      cases hending
    refine ⟨hover, ?_⟩
    by_contra hvalid
    rcases Nat.lt_or_ge (dec t s).length 4 with hshort | hlength
    · rw [endingB58cdec_of_short hover hshort] at hending
      cases hending
    · rw [endingB58cdec_of_mismatch hover hlength hvalid] at hending
      cases hending
  case mpr =>
    rintro ⟨hover, hvalid⟩
    exact ⟨_, _, endingB58cdec_of_valid hover hvalid⟩

/-! ### One flipped bit -/

@[simp] theorem flipBit_length (s : List Byte) (k j : Nat) : (flipBit s k j).length = s.length := by
  simp [flipBit]

theorem flipBit_ne {s : List Byte} {k j : Nat} (hk : k < s.length) (hj : j < 8) : flipBit s k j ≠ s := by
  intro h
  have hflipped : s[k] ^^^ (1#8 <<< j) = s[k] := by
    have hget := congrArg (fun l => l[k]?) h
    simpa [flipBit, hk] using hget
  have hmask : ∀ j : Fin 8, 1#8 <<< j.val ≠ 0#8 := by decide
  exact hmask ⟨j, hj⟩ (by simpa using hflipped)

/-- Settles O30: the changed sequence is as long as the checksummed payload, so B58CDEC tells whether it is valid. -/
theorem checksumRejectsFlippedBit : Obligations.ChecksumRejectsFlippedBit := by
  unfold Obligations.ChecksumRejectsFlippedBit
  intro d t b k j ht hk hj
  have hlength : (flipBit (b ++ cs4 d b) k j).length = b.length + 4 := by simp
  refine ⟨flipBit_ne (by simpa using hk) hj, ?_⟩
  rw [endingB58cdec_enc d ht (by omega), payloadPart_eq_take, hlength, Nat.add_sub_cancel]

end Sys2Proof.Machine
end

section
/-! The digest units in the commands (41_hash.md R124, R126, R128): DHASHW reads its window alone, and a command's
ending depends on the units through its own applications of them. -/

namespace Sys2Proof.Machine

/-! ### The window -/

/-- Two buffers that agree on a window hold the same elements there. -/
theorem memRead_congr {s s' : List Byte} {i n : Nat} (h : ∀ k, i ≤ k → k < i + n → s[k]? = s'[k]?) :
    memRead s i n = memRead s' i n := by
  refine List.ext_getElem? fun k => ?_
  rw [memRead_getElem?, memRead_getElem?]
  split
  case isTrue hk => exact h (i + k) (by omega) (by omega)
  case isFalse => rfl

/-- Settles O14: both windows are inside, and hold the same message. -/
theorem dhashwReadsWindowOnly : Obligations.DhashwReadsWindowOnly := by
  unfold Obligations.DhashwReadsWindowOnly
  intro s s' hs hs' hoff hlen hinside hinside' hagree
  refine ⟨_, _, exec_dhashw_ready s hs, exec_dhashw_ready s' hs', ?_⟩
  rw [← hoff, ← hlen, endingDhashw_of_inside _ hinside, endingDhashw_of_inside _ hinside', memRead_congr hagree]
  exact ⟨rfl, rfl, rfl⟩

/-- Settles O15: the window is the whole operand. -/
theorem dhashwOfWholeIsDhash : Obligations.DhashwOfWholeIsDhash := by
  unfold Obligations.DhashwOfWholeIsDhash
  intro s hready hoff hlen
  refine ⟨_, exec_dhash_ready s hready, ?_⟩
  have hoff : s.off.toNat = 0 := by rw [hoff]; rfl
  rw [exec_dhashw_ready s hready, endingDhashw_of_inside _ (by omega), hoff, hlen, memRead_whole]
  rfl

/-! ### The applications of the digest units -/

@[simp] theorem dhCalls_length (d : Digests) (m : List Byte) : (dhCalls d m).length = 2 := rfl

theorem dh_congr {d d' : Digests} {m : List Byte} (h : ∀ x ∈ dhCalls d m, agreeOn d d' x) : dh d m = dh d' m := by
  have hinner : d.h256 m = d'.h256 m := h (.h256 m) (by simp [dhCalls])
  have houter : d.h256 (d.h256 m).toList = d'.h256 (d.h256 m).toList := h (.h256 (d.h256 m).toList) (by simp [dhCalls])
  rw [dh, dh, houter, hinner]

theorem cs4_congr {d d' : Digests} {p : List Byte} (h : ∀ x ∈ dhCalls d p, agreeOn d d' x) : cs4 d p = cs4 d' p := by
  rw [cs4, cs4, dh_congr h]

theorem idh_congr {d d' : Digests} {m : List Byte}
    (h : ∀ x ∈ [DigestCall.h256 m, .h160 (d.h256 m).toList], agreeOn d d' x) : idh d m = idh d' m := by
  have hinner : d.h256 m = d'.h256 m := h (.h256 m) (by simp)
  have houter : d.h160 (d.h256 m).toList = d'.h160 (d.h256 m).toList := h (.h160 (d.h256 m).toList) (by simp)
  rw [idh, idh, houter, hinner]

/-- Other digest units that agree on a command's applications change nothing in how it ends. -/
theorem callEnding_congr_digests (c : CallConfig) (d : Digests) (i : Instr) (data : List Byte) (off len : Nat)
    (a b : Word64) (h : ∀ x ∈ digestCalls c i data off len, agreeOn c.digests d x) :
    callEnding c i data off len a b = callEnding { c with digests := d } i data off len a b := by
  cases i
  case dhash => simp only [callEnding, endingDhash, dh_congr h]
  case idhash => simp only [callEnding, endingIdhash, idh_congr h]
  case b58cenc => simp only [callEnding, endingB58cenc, cs4_congr h]
  case dhashw =>
    simp only [callEnding, endingDhashw]
    split
    case isTrue hinside => rw [dh_congr (by simpa only [digestCalls, if_pos hinside] using h)]
    case isFalse => rfl
  case b58cdec =>
    simp only [callEnding, endingB58cdec]
    split
    case h_1 => rfl
    case h_2 e hdecode =>
      split
      case isTrue => rfl
      case isFalse hlength => rw [cs4_congr (by simpa only [digestCalls, hdecode, if_neg hlength] using h)]
  all_goals rfl

/-- Settles O16: only DHASHW and B58CDEC look at the operand before they apply a unit, and other units matter to a
command only where it applies them. -/
theorem digestApplications : Obligations.DigestApplications := by
  unfold Obligations.DigestApplications
  refine ⟨?counts, fun d m => ⟨_, rfl, by simp⟩, callEnding_congr_digests⟩
  case counts =>
    intro c i data off len
    cases i
    case dhashw =>
      simp only [digestCalls, windowInside, decide_eq_true_eq]
      split <;> rfl
    case b58cdec =>
      simp only [digestCalls]
      cases decodeText c.tables data with
      | error k => rfl
      | ok b =>
        rcases Nat.lt_or_ge b.length 4 with hshort | hlength
        · simp [hshort, Nat.not_le.mpr hshort]
        · simp [hlength, Nat.not_lt.mpr hlength]
    all_goals rfl

end Sys2Proof.Machine
end

section
/-! The tables (10_state.md R21 to R23): the derived `INDEXES` is the inverse of every alphabet of distinct codes, and
the alphabet of this hardware is one. -/

namespace Sys2Proof.Machine

theorem get_of_indexOf_eq_some {alphabet : Vector Byte Config.base} {c : Byte} {i : Fin Config.base}
    (h : indexOf alphabet c = some i) : alphabet.get i = c := by
  simpa using List.find?_some h

theorem indexOf_eq_none_iff (alphabet : Vector Byte Config.base) (c : Byte) :
    indexOf alphabet c = none ↔ ∀ i, alphabet.get i ≠ c := by
  simp [indexOf]

/-- Of distinct codes no other one is found. -/
theorem indexOf_get {alphabet : Vector Byte Config.base} (h : ∀ i j, alphabet.get i = alphabet.get j → i = j)
    (i : Fin Config.base) : indexOf alphabet (alphabet.get i) = some i := by
  cases hfound : indexOf alphabet (alphabet.get i) with
  | none => exact absurd rfl ((indexOf_eq_none_iff alphabet _).mp hfound i)
  | some j => exact congrArg some (h j i (get_of_indexOf_eq_some hfound))

theorem tablesOk_buildIndexes {alphabet : Vector Byte Config.base}
    (h : ∀ i j, alphabet.get i = alphabet.get j → i = j) : TablesOk ⟨alphabet, buildIndexes alphabet⟩ where
  distinct := h
  indexed i := by rw [lookup_buildIndexes, indexOf_get h]
  spelled c i hi := get_of_indexOf_eq_some (by rwa [lookup_buildIndexes] at hi)

/-- Settles O7: the entry of a code is the place at which the search of the alphabet finds it. -/
theorem tablesFromAlphabet : Obligations.TablesFromAlphabet := by
  unfold Obligations.TablesFromAlphabet
  intro alphabet hdistinct
  have htables := tablesOk_buildIndexes hdistinct
  refine ⟨htables, fun c i => ⟨htables.spelled c i, ?_⟩, fun c => ?_⟩
  · rintro rfl
    exact htables.indexed i
  · rw [lookup_buildIndexes, indexOf_eq_none_iff]

theorem alphabetValue_distinct : ∀ i j, alphabetValue.get i = alphabetValue.get j → i = j := by decide

theorem tablesOk_tablesValue : TablesOk tablesValue := tablesOk_buildIndexes alphabetValue_distinct

/-- Settles O8: the 58 codes of this hardware, compared and looked at one by one. -/
theorem alphabetIsAdmissible : Obligations.AlphabetAdmissible := by
  unfold Obligations.AlphabetAdmissible alphabetAdmissible
  refine ⟨⟨alphabetValue_distinct, ?printable, ?excluded⟩, rfl⟩
  case printable => decide
  case excluded => decide

end Sys2Proof.Machine
end

section
/-! The writes of `CMD` (30_encoding.md R100): what one keeps, what a second one changes, and that in `FATAL` it is
discarded. -/

namespace Sys2Proof.Machine

/-! ### What a command word leaves in `IBUF` -/

/-- REV reverses the operand, and every other word leaves it as it is (20_memory.md R75). -/
theorem operandAfter_eq (w : Byte) (s : State) : operandAfter w s = if w = 0x09 then s.ibuf.reverse else s.ibuf := by
  cases hd : decode w with
  | error e =>
    have hne : w ≠ 0x09 := by
      rintro rfl
      cases hd
    rw [operandAfter_reserved hd, if_neg hne]
    rfl
  | ok i =>
    rw [operandAfter_command hd, ← encode_of_decode hd]
    cases i <;> rfl

theorem operandAfter_length (w : Byte) (s : State) : (operandAfter w s).length = s.ibuf.length := by
  rw [operandAfter_eq]
  split
  case isTrue => exact List.length_reverse
  case isFalse => rfl

/-! ### One write -/

@[simp] theorem hostCommand_encode (i : Instr) (s : State) : hostCommand (encode i) s = exec i s := by
  rw [hostCommand, decode_encode]

theorem exec_fatal (i : Instr) (s : State) (h : s.phase = .fatal) : exec i s = .next s :=
  (exec_eq_runOperation i s).trans (runOperation_fatal _ _ _ s h)

theorem hostCommand_fatal (w : Byte) (s : State) (h : s.phase = .fatal) : hostCommand w s = .next s :=
  (hostCommand_eq_runOperation w s).trans (runOperation_fatal _ _ _ s h)

/-- Settles O45: in `FATAL` the write leaves the state as it is, and in `READY` an ending writes no operand register. -/
theorem commandsKeepOperands : Obligations.CommandsKeepOperands := by
  unfold Obligations.CommandsKeepOperands
  intro w s
  cases hphase : s.phase with
  | fatal => exact ⟨s, hostCommand_fatal w s hphase, by simp [hphase]⟩
  | ready =>
    refine ⟨_, hostCommand_ready w s hphase, ?_⟩
    have hilen : (operandAfter w s).length = s.ilen := operandAfter_length w s
    have hibuf : decode w ≠ .ok .rev → operandAfter w s = s.ibuf := fun hrev => by
      have hne : w ≠ 0x09 := fun hw => hrev ((decode_eq_ok_iff w .rev).mpr hw)
      rw [operandAfter_eq, if_neg hne]
    simpa [hphase, State.ilen] using ⟨hilen, hibuf⟩

/-! ### A second write -/

/-- What a word leaves is all that an equal ending of the same word would write. -/
theorem State.settle_settle (s : State) (w : Byte) (v : List Byte) (e : Ending) :
    (((((s.setCmd w).setIbuf v).settle e).setCmd w).setIbuf v).settle e = ((s.setCmd w).setIbuf v).settle e := by
  cases e with
  | complete out flag => rfl
  | raise k pos => rfl

theorem readsAgree_of_operands_eq (w : Byte) {s s' : State} (htables : s.tables = s'.tables) (hibuf : s.ibuf = s'.ibuf)
    (hoff : s.off = s'.off) (hlen : s.len = s'.len) (hopa : s.opa = s'.opa) (hopb : s.opb = s'.opb) :
    readsAgree w s s' := by
  refine ⟨htables, ?_⟩
  cases decode w with
  | error e => trivial
  | ok i =>
    cases i
    case ult64 => exact ⟨hopa, hopb⟩
    case dhashw => exact ⟨hibuf, hoff, hlen⟩
    all_goals exact hibuf

/-- A word other than REV's, written again, finds the operands unchanged. -/
theorem hostCommand_settled {w : Byte} (hw : w ≠ 0x09) {s : State} (h : s.phase = .ready) :
    hostCommand w (((s.setCmd w).setIbuf s.ibuf).settle (endingOf w s)) =
      .next (((s.setCmd w).setIbuf s.ibuf).settle (endingOf w s)) := by
  have hending : endingOf w (((s.setCmd w).setIbuf s.ibuf).settle (endingOf w s)) = endingOf w s :=
    endingOf_eq_of_readsAgree (readsAgree_of_operands_eq w (by simp) (by simp) (by simp) (by simp) (by simp) (by simp))
  rw [hostCommand_ready _ _ (by simpa using h), operandAfter_eq, if_neg hw, hending, State.settle_ibuf,
    State.setIbuf_ibuf, State.settle_settle]

/-- Settles O47: in `FATAL` both writes are discarded; in `READY` the second one finds the operands that the first one
found, and but for REV it ends the same way. -/
theorem commandTwice : Obligations.CommandTwice := by
  unfold Obligations.CommandTwice
  intro w s
  cases hphase : s.phase with
  | fatal =>
    have hdiscarded := hostCommand_fatal w s hphase
    exact ⟨s, hdiscarded, fun _ => hdiscarded, fun _ => ⟨s, hdiscarded, rfl⟩⟩
  | ready =>
    by_cases hw : w = 0x09
    · subst hw
      obtain ⟨t, u, ht, hu, hibuf, _⟩ := exec_rev_twice s hphase
      exact ⟨t, ht, fun hne => absurd rfl hne, fun _ => ⟨u, hu, hibuf⟩⟩
    · have hfirst := hostCommand_ready w s hphase
      rw [operandAfter_eq, if_neg hw] at hfirst
      exact ⟨_, hfirst, fun _ => hostCommand_settled hw hphase, fun h => absurd h hw⟩

/-! ### Decoding, `STATUS` and `FATAL` -/

/-- Settles O5: each word decodes as its bits say. -/
theorem specWordsDecode : Obligations.SpecWordsDecode := by
  unfold Obligations.SpecWordsDecode
  decide

/-- Settles O38: the step writes `CMD`, and the write of a decoded word is its command. -/
theorem stepRunsDecodedInstruction : Obligations.StepRunsDecodedInstruction := by
  unfold Obligations.StepRunsDecodedInstruction
  intro s w rest i hpending hdecode
  rw [step_writeCmd s w rest hpending, ← encode_of_decode hdecode, hostCommand_encode]
  rfl

/-- `STATUS` as a number: `CODE`, and 128 more in `FATAL` (10_state.md R30). -/
theorem State.status_toNat (s : State) : s.status.toNat = (if s.phase = .fatal then 128 else 0) + s.code.toNat := by
  rw [State.status]
  generalize s.code = code
  cases s.phase
  case ready => revert code; decide
  case fatal => revert code; decide

/-- Settles O43: `CODE` is below 16, so the quotient by 128 is the bit of `FATAL`, and between them are zeros. -/
theorem statusLayout : Obligations.StatusLayout := by
  unfold Obligations.StatusLayout
  refine ⟨fun s => ?_, rfl⟩
  have hcode : s.code.toNat < 16 := s.code.isLt
  rw [State.status_toNat]
  split
  case isTrue => omega
  case isFalse => omega

/-- Settles O41: the write is discarded, and no command has run that could have left a code. -/
theorem fatalDiscardsCommands : Obligations.FatalDiscardsCommands := by
  unfold Obligations.FatalDiscardsCommands
  intro s hfatal
  refine ⟨fun i => exec_fatal i s hfatal, fun w rest hpending => ?_, fun hinv => ?_⟩
  · rw [step_writeCmd s w rest hpending]
    exact hostCommand_fatal w (s.setPending rest) hfatal
  · obtain ⟨_, hcode, _⟩ := hinv.fatalQuiet hfatal
    rw [State.status, hfatal, hcode]
    rfl

/-! ### The comparison of ULT64 -/

/-- Settles O37: the comparison is that of the words as natural numbers. -/
theorem ult64StrictOrder : Obligations.Ult64StrictOrder := by
  unfold Obligations.Ult64StrictOrder
  simp only [lessUnsigned_eq_decide, decide_eq_true_eq, decide_eq_false_iff_not]
  refine ⟨fun a => Nat.lt_irrefl _, fun a b c => Nat.lt_trans, fun a b hne => ?_⟩
  have hvalue : a.toNat ≠ b.toNat := fun h => hne (BitVec.eq_of_toNat_eq h)
  rw [← decide_not, decide_eq_decide]
  omega

end Sys2Proof.Machine
end

section
/-! The host operations (20_memory.md R73): the step of each, what the host can bring about in one step, and a whole
transaction as the call of a function (30_encoding.md R103). -/

namespace Sys2Proof.Machine

/-! ### The step of each operation -/

section
variable {s : State} {rest : List HostOp}

theorem step_load {v : List Byte} (h : s.pending = .load v :: rest) :
    step s = if Config.fits Config.maxLen v.length = true then .next { s with pending := rest, ibuf := v }
      else .refused .operandTooLong :=
  step_pending s _ rest h

theorem step_writeOff {v : Nat} (h : s.pending = .writeReg .off v :: rest) :
    step s = if v < 2 ^ 32 then .next { s with pending := rest, off := BitVec.ofNat 32 v }
      else .refused .valueOutOfRange :=
  (step_pending s _ rest h).trans (if_congr decide_eq_true_iff rfl rfl)

theorem step_writeLen {v : Nat} (h : s.pending = .writeReg .len v :: rest) :
    step s = if v < 2 ^ 32 then .next { s with pending := rest, len := BitVec.ofNat 32 v }
      else .refused .valueOutOfRange :=
  (step_pending s _ rest h).trans (if_congr decide_eq_true_iff rfl rfl)

theorem step_writeOpa {v : Nat} (h : s.pending = .writeReg .opa v :: rest) :
    step s = if v < 2 ^ 64 then .next { s with pending := rest, opa := BitVec.ofNat 64 v }
      else .refused .valueOutOfRange :=
  (step_pending s _ rest h).trans (if_congr decide_eq_true_iff rfl rfl)

theorem step_writeOpb {v : Nat} (h : s.pending = .writeReg .opb v :: rest) :
    step s = if v < 2 ^ 64 then .next { s with pending := rest, opb := BitVec.ofNat 64 v }
      else .refused .valueOutOfRange :=
  (step_pending s _ rest h).trans (if_congr decide_eq_true_iff rfl rfl)

theorem step_writeReg_cmd {v : Nat} (h : s.pending = .writeReg .cmd v :: rest) :
    step s = if v < 2 ^ 8 then hostCommand (BitVec.ofNat 8 v) { s with pending := rest }
      else .refused .valueOutOfRange :=
  (step_pending s _ rest h).trans (if_congr decide_eq_true_iff rfl rfl)

theorem step_readReg {r : Reg} (h : s.pending = .readReg r :: rest) :
    step s = .next { s with pending := rest, reply := some (.value (regValue r s)) } := by
  rw [step_pending s _ rest h]
  cases r <;> rfl

theorem step_readBuffer {b : Buffer} (h : s.pending = .readBuffer b :: rest) :
    step s = .next { s with pending := rest, reply := some (.elements (bufferContents b s)) } := by
  rw [step_pending s _ rest h]
  cases b <;> rfl

theorem step_readElement {b : Buffer} {i : Nat} (h : s.pending = .readElement b i :: rest) :
    step s = hostReadElement b i (s.setPending rest) :=
  step_pending s _ rest h

/-- The registers whose host write is ignored (10_state.md R38). -/
theorem step_writeReg_ignored {r : Reg} {v : Nat}
    (hr : r = .status ∨ r = .olen ∨ r = .flag ∨ r = .errpos ∨ ∃ k, r = .reserved k)
    (h : s.pending = .writeReg r v :: rest) : step s = .next { s with pending := rest } := by
  rw [step_pending s _ rest h]
  rcases hr with rfl | rfl | rfl | rfl | ⟨k, rfl⟩ <;> rfl

theorem step_writeReg_ilen {v : Nat} (h : s.pending = .writeReg .ilen v :: rest) :
    step s = .refused .ilenWrittenAlone :=
  step_pending s _ rest h

end

theorem regValue_flag (s : State) : regValue .flag s = if s.flag = true then 1 else 0 := by
  rw [regValue]
  cases s.flag <;> rfl

/-- Settles O49: the step of each operation, with the value of `STATUS` and of `FLAG` as numbers. -/
theorem hostOperations : Obligations.HostOperations := by
  unfold Obligations.HostOperations
  refine ⟨fun s rest v => step_load, fun s rest v => step_writeOff, fun s rest v => step_writeLen,
    fun s rest v => step_writeOpa, fun s rest v => step_writeOpb, fun s rest v => step_writeReg_cmd,
    fun s rest h => ?readIbuf, fun s rest h => ?readObuf, fun s rest r h => ?readReg, fun s rest i h => ?elementIbuf,
    fun s rest i h => ?elementObuf⟩
  case readIbuf => rw [step_readBuffer h, bufferContents_ibuf]
  case readObuf => rw [step_readBuffer h, bufferContents_obuf]
  case readReg =>
    rw [step_readReg h]
    cases r
    case status => rw [regValue, State.status_toNat]
    case flag => rw [regValue_flag]
    all_goals rfl
  case elementIbuf =>
    rw [step_readElement h, hostReadElement, bufferContents_ibuf, State.setPending_ibuf]
    cases s.ibuf[i]? <;> rfl
  case elementObuf =>
    rw [step_readElement h, hostReadElement, bufferContents_obuf, State.setPending_obuf]
    cases s.obuf[i]? <;> rfl

/-- Settles O51: the read leaves `OBUF` in the reply, and the load takes it from there. -/
theorem ldoLoadsResult : Obligations.LdoLoadsResult := by
  unfold Obligations.LdoLoadsResult
  intro s lead rest h
  have hread : s.pending = .readBuffer .obuf :: .loadReply lead :: rest := h
  rw [runSteps_next 1 s _ (step_readBuffer hread), runSteps_one, step_pending _ (.loadReply lead) rest rfl,
    bufferContents_obuf]
  simp only [hostOperation, hostLoadReply, State.setPending_reply, hostLoad, List.length_append]
  rfl

/-! ### The end of the run -/

/-- Every write of a command word goes on (60_exceptions.md R233). -/
theorem hostCommand_next (w : Byte) (s : State) : ∃ t, hostCommand w s = .next t := by
  rw [hostCommand_eq_runOperation]
  exact runOperation_next _ _ _ s

theorem hostOperation_ne_fault (op : HostOp) (s : State) (r : Fault) : hostOperation op s ≠ .fault r := by
  have hload (v : List Byte) : hostLoad Config.maxLen v s ≠ .fault r := by
    unfold hostLoad
    split <;> simp
  cases op with
  | load v => exact hload v
  | loadReply lead =>
    simp only [hostOperation, hostLoadReply]
    split
    case h_1 v _ => exact hload (lead ++ v)
    all_goals simp
  | readBuffer b => simp [hostOperation]
  | readElement b i =>
    simp only [hostOperation, hostReadElement]
    split <;> simp
  | writeReg reg v =>
    simp only [hostOperation]
    cases reg
    case cmd =>
      obtain ⟨t, ht⟩ := hostCommand_next (BitVec.ofNat 8 v) s
      simp only [hostWrite, ht]
      split <;> simp
    case off | len | opa | opb =>
      simp only [hostWrite]
      split <;> simp
    all_goals exact nofun
  | readReg reg => simp [hostOperation]
  | reset => simp [hostOperation]

/-- Settles O52: with an operation pending the step is that operation, and none ends in a fault. -/
theorem runEndsWithHostOperations : Obligations.RunEndsWithHostOperations := by
  unfold Obligations.RunEndsWithHostOperations
  intro s
  refine ⟨fun hfault => ?_, step_idle s⟩
  cases hpending : s.pending with
  | nil => rfl
  | cons op rest =>
    rw [step_pending s op rest hpending] at hfault
    exact absurd hfault (hostOperation_ne_fault op _ _)

/-! ### What the host can bring about in one step -/

/-- What no host operation but a reset and a write of `CMD` touches (20_memory.md R73, last sentence). -/
structure SameResults (s t : State) : Prop where
  tables : t.tables = s.tables
  phase  : t.phase = s.phase
  cmd    : t.cmd = s.cmd
  code   : t.code = s.code
  errpos : t.errpos = s.errpos
  obuf   : t.obuf = s.obuf
  flag   : t.flag = s.flag

/-- Everything a host operation can do to the block: a reset, a command, a load of `IBUF`, or an access that touches
neither `IBUF` nor a result. -/
inductive HostEffect (s : State) : HostOp → State → Prop
  | reset : HostEffect s .reset (State.afterReset true s.pending s.reply)
  | command {w : Byte} {t : State} (h : hostCommand w s = .next t) : HostEffect s (.writeReg .cmd w.toNat) t
  | load {op : HostOp} {v : List Byte} (hop : op = .load v ∨ ∃ lead, op = .loadReply lead)
      (hfits : Config.fits Config.maxLen v.length = true) : HostEffect s op (s.setIbuf v)
  | access {op : HostOp} {t : State} (hresults : SameResults s t) (hibuf : t.ibuf = s.ibuf) : HostEffect s op t

theorem SameResults.refl (s : State) : SameResults s s := ⟨rfl, rfl, rfl, rfl, rfl, rfl, rfl⟩

theorem sameResults_setIbuf (s : State) (v : List Byte) : SameResults s (s.setIbuf v) :=
  ⟨rfl, rfl, rfl, rfl, rfl, rfl, rfl⟩

theorem sameResults_setReply (s : State) (r : Reply) : SameResults s (s.setReply r) :=
  ⟨rfl, rfl, rfl, rfl, rfl, rfl, rfl⟩

theorem sameResults_setPending (s : State) (ops : List HostOp) : SameResults s (s.setPending ops) :=
  ⟨rfl, rfl, rfl, rfl, rfl, rfl, rfl⟩

theorem hostLoad_eq_next {v : List Byte} {s t : State} (h : hostLoad Config.maxLen v s = .next t) :
    Config.fits Config.maxLen v.length = true ∧ t = s.setIbuf v := by
  unfold hostLoad at h
  split at h
  case isTrue hfits => exact ⟨hfits, by simpa using h.symm⟩
  case isFalse => cases h

/-- A write of a register other than `CMD` that goes on is an access. -/
theorem hostEffect_of_hostWrite {r : Reg} {v : Nat} {s t : State} (h : hostWrite r v s = .next t) :
    HostEffect s (.writeReg r v) t := by
  cases r
  case cmd =>
    simp only [hostWrite, regAccepts, decide_eq_true_eq] at h
    split at h
    case isTrue hv =>
      have hvalue : (BitVec.ofNat 8 v).toNat = v := by simpa using hv
      rw [← hvalue]
      exact .command h
    case isFalse => cases h
  case ilen => cases h
  case status | olen | flag | errpos | reserved =>
    cases h
    exact .access (.refl s) rfl
  case off | len | opa | opb =>
    simp only [hostWrite] at h
    split at h
    case isTrue =>
      cases h
      exact .access ⟨rfl, rfl, rfl, rfl, rfl, rfl, rfl⟩ rfl
    case isFalse => cases h

theorem hostEffect_of_hostOperation {op : HostOp} {s t : State} (h : hostOperation op s = .next t) :
    HostEffect s op t := by
  have hread {op : HostOp} {r : Reply} : HostEffect s op (s.setReply r) :=
    .access (sameResults_setReply s r) rfl
  cases op with
  | load v =>
    obtain ⟨hfits, rfl⟩ := hostLoad_eq_next h
    exact .load (.inl rfl) hfits
  | loadReply lead =>
    simp only [hostOperation, hostLoadReply] at h
    split at h
    case h_1 v _ =>
      obtain ⟨hfits, rfl⟩ := hostLoad_eq_next h
      exact .load (.inr ⟨lead, rfl⟩) hfits
    all_goals cases h
  | readBuffer b =>
    cases h
    exact hread
  | readElement b i =>
    simp only [hostOperation, hostReadElement] at h
    split at h
    · cases h
      exact hread
    · cases h
  | writeReg r v => exact hostEffect_of_hostWrite h
  | readReg r =>
    cases h
    exact hread
  | reset =>
    cases h
    exact .reset

/-- A step that goes on is the effect of the oldest pending operation. -/
theorem hostEffect_of_step {s t : State} {op : HostOp} {rest : List HostOp} (hpending : s.pending = op :: rest)
    (hstep : step s = .next t) : HostEffect (s.setPending rest) op t :=
  hostEffect_of_hostOperation (by rw [← hstep, step_pending s op rest hpending])

theorem HostEffect.sameResults {s t : State} {op : HostOp} (h : HostEffect s op t) (hreset : op ≠ .reset)
    (hcmd : ∀ v, op ≠ .writeReg .cmd v) : SameResults s t := by
  cases h with
  | reset => exact absurd rfl hreset
  | command => exact absurd rfl (hcmd _)
  | load => exact sameResults_setIbuf s _
  | access hresults => exact hresults

/-- In `FATAL` no operation but a reset touches a result. -/
theorem HostEffect.sameResults_of_fatal {s t : State} {op : HostOp} (h : HostEffect s op t) (hreset : op ≠ .reset)
    (hfatal : s.phase = .fatal) : SameResults s t := by
  cases h with
  | reset => exact absurd rfl hreset
  | command hcommand =>
    rw [hostCommand_fatal _ s hfatal] at hcommand
    cases hcommand
    exact .refl s
  | load => exact sameResults_setIbuf s _
  | access hresults => exact hresults

theorem hostCommand_phase {w : Byte} {s t : State} (h : hostCommand w s = .next t) : t.phase = s.phase := by
  obtain ⟨u, hu, _, hphase, _⟩ := commandsKeepOperands w s
  obtain rfl : u = t := by simpa [hu] using h
  exact hphase

theorem hostCommand_ilen {w : Byte} {s t : State} (h : hostCommand w s = .next t) : t.ilen = s.ilen := by
  obtain ⟨u, hu, _, _, _, _, _, _, hilen, _⟩ := commandsKeepOperands w s
  obtain rfl : u = t := by simpa [hu] using h
  exact hilen

theorem HostEffect.phase {s t : State} {op : HostOp} (h : HostEffect s op t) (hreset : op ≠ .reset) :
    t.phase = s.phase := by
  cases h with
  | reset => exact absurd rfl hreset
  | command hcommand => exact hostCommand_phase hcommand
  | load => rfl
  | access hresults => exact hresults.phase

/-- Settles O42: a reset of this hardware ends in `READY`, and no other operation touches `PHASE`, or a result in
`FATAL`. -/
theorem phaseChangesAtResetOnly : Obligations.PhaseChangesAtResetOnly := by
  unfold Obligations.PhaseChangesAtResetOnly
  intro s t op rest hpending hstep
  have heffect := hostEffect_of_step hpending hstep
  refine ⟨heffect.phase, fun hready => ?_, fun hreset hfatal => ?_⟩
  · by_cases hop : op = .reset
    · subst hop
      rw [step_reset s rest hpending] at hstep
      cases hstep
      rfl
    · exact (heffect.phase hop).trans hready
  · have hresults := heffect.sameResults_of_fatal hreset hfatal
    exact ⟨hresults.cmd, hresults.code, hresults.errpos, hresults.obuf, hresults.flag⟩

/-- Settles O50: `OLEN` and `STATUS` are computed from what such an operation does not touch. -/
theorem hostWritesNoResult : Obligations.HostWritesNoResult := by
  unfold Obligations.HostWritesNoResult
  intro s t op rest hpending hreset hcmd hstep
  have hresults := (hostEffect_of_step hpending hstep).sameResults hreset hcmd
  have holen : t.olen = s.olen := congrArg List.length hresults.obuf
  have hstatus : t.status = s.status := congrArg₂ statusWord hresults.phase hresults.code
  exact ⟨hresults.obuf, holen, hresults.flag, hresults.errpos, hstatus, hresults.tables, hresults.phase, hresults.cmd⟩

/-! ### The register port -/

theorem regOfNumber_numberOfReg (r : Reg) : regOfNumber (numberOfReg r) = r := by
  cases r
  case reserved k => revert k; decide
  all_goals rfl

/-- Settles O6: the sixteen numbers one by one, and what an access to a register and any other operation does. -/
theorem registerPort : Obligations.RegisterPort := by
  unfold Obligations.RegisterPort
  refine ⟨rfl, by decide, by decide, regOfNumber_numberOfReg, fun s rest k => step_readReg,
    fun s rest r v => step_writeReg_ignored, fun s rest v hpending t => ?ilenAlone,
    fun s t op rest hpending hstep hload hreply hreset => ?ilenKept⟩
  case ilenAlone =>
    rw [step_writeReg_ilen hpending]
    exact nofun
  case ilenKept =>
    cases hostEffect_of_step hpending hstep with
    | reset => exact absurd rfl hreset
    | command hcommand => exact hostCommand_ilen (s := s.setPending rest) hcommand
    | load hop =>
      rcases hop with rfl | ⟨lead, rfl⟩
      · exact absurd rfl (hload _)
      · exact absurd rfl (hreply lead)
    | access _ hibuf => exact congrArg List.length hibuf

/-! ### A whole transaction -/

theorem resultRegisters_settle (s : State) (w : Byte) (v : List Byte) (e : Ending) :
    resultRegisters (((s.setCmd w).setIbuf v).settle e) = resultOfEnding v e := by
  cases e with
  | complete out flag => rfl
  | raise k pos => rfl

@[simp] theorem resultOfEnding_data (v : List Byte) (e : Ending) : (resultOfEnding v e).data = v := by
  cases e with
  | complete out flag => rfl
  | raise k pos => rfl

/-- With this hardware's tables, `call` is what a word leaves in `IBUF` and how it ends, as the host reads them. -/
theorem call_eq_resultOfEnding (w : Byte) (s : State) (h : s.tables = tablesValue) :
    call callConfigValue w s.ibuf s.off.toNat s.len.toNat s.opa s.opb =
      resultOfEnding (operandAfter w s) (endingOf w s) := by
  unfold call
  cases hd : decode w with
  | error e =>
    rw [operandAfter_reserved hd, endingOf_reserved hd]
    rfl
  | ok i =>
    rw [operandAfter_command hd, endingOf_command hd, commandEnding, h]
    cases i <;> rfl

/-- The operand registers as the first five operations of a transaction leave them. -/
def State.withOperands (s : State) (data : List Byte) (off len : Word32) (a b : Word64) : State :=
  { s with ibuf := data, off := off, len := len, opa := a, opb := b }

/-- The six operations of a transaction are the write of `CMD` on the operands it brings. -/
theorem runSteps_callScript {s : State} {w : Byte} {data : List Byte} {off len : Word32} {a b : Word64}
    {rest : List HostOp} (hfits : Config.fits Config.maxLen data.length = true)
    (hpending : s.pending = callScript w data off len a b ++ rest) :
    runSteps 6 s = hostCommand w ((s.withOperands data off len a b).setPending rest) := by
  have hload := step_load hpending
  rw [if_pos hfits] at hload
  rw [runSteps_next 5 s _ hload, runSteps_next 4 _ _ ((step_writeOff rfl).trans (if_pos off.isLt)),
    runSteps_next 3 _ _ ((step_writeLen rfl).trans (if_pos len.isLt)),
    runSteps_next 2 _ _ ((step_writeOpa rfl).trans (if_pos a.isLt)),
    runSteps_next 1 _ _ ((step_writeOpb rfl).trans (if_pos b.isLt)), runSteps_one, step_writeCmd _ w rest rfl]
  simp only [BitVec.ofNat_toNat, BitVec.setWidth_eq]
  rfl

/-- Settles O48: the six steps are the write of `CMD` on the operands of the call, which leaves the registers as
`operandAfter` and `endingOf` say. -/
theorem transactionIsCall : Obligations.TransactionIsCall := by
  unfold Obligations.TransactionIsCall
  intro s w data off len a b rest hready htables hfits hpending
  have hcall := call_eq_resultOfEnding w ((s.withOperands data off len a b).setPending rest) htables
  refine ⟨_, (runSteps_callScript hfits hpending).trans (hostCommand_ready w _ hready), by simp, ?registers, ?data⟩
  case registers =>
    rw [resultRegisters_settle]
    exact hcall.symm
  case data =>
    refine (congrArg CallResult.data hcall).trans ?_
    rw [resultOfEnding_data, operandAfter_eq]
    rfl

end Sys2Proof.Machine
end

section
/-! Hexadecimal text (44_byteops.md R191, R192): the characters of HEXENC and the bytes of HEXDEC by their positions,
and the two laws, that HEXDEC undoes HEXENC and HEXENC undoes HEXDEC up to the letter case. -/

namespace Sys2Proof.Machine

/-! ### The sixteen digits -/

/-- The table of 44_byteops.md R192: the ranges of the digits, of the small letters and of the capital letters. -/
theorem hexval_eq_some_iff (both : Bool) (c : Byte) (v : Nat) : hexval both c = some v ↔
    (0x30 ≤ c.toNat ∧ c.toNat ≤ 0x39 ∧ v = c.toNat - 0x30) ∨
    (0x61 ≤ c.toNat ∧ c.toNat ≤ 0x66 ∧ v = c.toNat - 0x61 + 10) ∨
    (both = true ∧ 0x41 ≤ c.toNat ∧ c.toNat ≤ 0x46 ∧ v = c.toNat - 0x41 + 10) := by
  unfold hexval
  split
  case isTrue hdecimal => simp only [Option.some.injEq]; omega
  case isFalse hdecimal =>
    split
    case isTrue hsmall => simp only [Option.some.injEq]; omega
    case isFalse hsmall =>
      split
      case isTrue hcapital =>
        obtain ⟨hboth, hcapital⟩ := hcapital
        simp only [Option.some.injEq, hboth, true_and]
        omega
      case isFalse hcapital =>
        simp only [reduceCtorEq, false_iff]
        rintro (⟨hlow, hhigh, _⟩ | ⟨hlow, hhigh, _⟩ | ⟨hboth, hlow, hhigh, _⟩)
        · exact hdecimal ⟨hlow, hhigh⟩
        · exact hsmall ⟨hlow, hhigh⟩
        · exact hcapital ⟨hboth, hlow, hhigh⟩

theorem hexval_lt {both : Bool} {c : Byte} {v : Nat} (h : hexval both c = some v) : v < 16 := by
  have hrange := (hexval_eq_some_iff both c v).mp h
  omega

/-- The digit of a letter case for a number below 16. -/
def hexDigit (c : HexCase) (d : Nat) : Byte := (hexDigits c).get (Fin.ofNat 16 d)

theorem hexDigit_mem (c : HexCase) (d : Nat) : hexDigit c d ∈ (hexDigits c).toList := by
  simp [hexDigit, Vector.get]

/-- The sixteen digits of either letter case, read back one by one. -/
theorem hexval_hexDigit (c : HexCase) {d : Nat} (h : d < 16) : hexval true (hexDigit c d) = some d := by
  have hall : ∀ d : Fin 16, hexval true (hexDigit c d.val) = some d.val := by
    cases c
    case lowercase => decide
    case uppercase => decide
  exact hall ⟨d, h⟩

/-- The digits are in the order of the codes, the ten decimal ones before the letters. -/
theorem hexDigit_lowercase_toNat {d : Nat} (h : d < 16) :
    (hexDigit .lowercase d).toNat = if d < 10 then 0x30 + d else 0x61 + (d - 10) := by
  have hall : ∀ d : Fin 16,
      (hexDigit .lowercase d.val).toNat = if d.val < 10 then 0x30 + d.val else 0x61 + (d.val - 10) := by decide
  exact hall ⟨d, h⟩

/-- The byte of two digits holds them in its high and its low four bits. -/
theorem hexByte_toNat {x y : Nat} (hx : x < 16) (hy : y < 16) : (BitVec.ofNat 8 (16 * x + y)).toNat = 16 * x + y := by
  rw [BitVec.toNat_ofNat]
  omega

/-! ### HEXENC -/

theorem hexText_cons_hexDigit (c : HexCase) (b : Byte) (s : List Byte) :
    hexText c (b :: s) = hexDigit c (b.toNat / 16) :: hexDigit c (b.toNat % 16) :: hexText c s := rfl

/-- The characters `2k` and `2k + 1` are the digits of the high and the low four bits of byte `k`. -/
theorem hexText_getElem? (c : HexCase) (s : List Byte) (k : Nat) :
    (hexText c s)[2 * k]? = s[k]?.map (fun v => hexDigit c (v.toNat / 16)) ∧
    (hexText c s)[2 * k + 1]? = s[k]?.map (fun v => hexDigit c (v.toNat % 16)) := by
  induction s generalizing k with
  | nil => exact ⟨rfl, rfl⟩
  | cons b s ih =>
    rw [hexText_cons_hexDigit]
    cases k with
    | zero => exact ⟨rfl, rfl⟩
    | succ k => exact ih k

theorem exec_hexenc_ready (s : State) (h : s.phase = .ready) :
    exec .hexenc s = .next ((s.setCmd 0x07).complete (hexText .lowercase s.ibuf) false) :=
  exec_ready_of_ne_rev (by decide) s h

/-- Settles O32: HEXENC settles `complete(hexText(IBUF))`, whose characters at `2k` and `2k + 1` are the digits of the
two halves of byte `k`. -/
theorem hexencCompletes : Obligations.HexencCompletes := by
  unfold Obligations.HexencCompletes
  refine ⟨by decide, by decide, fun s hready => ⟨_, exec_hexenc_ready s hready, hexText_length _ _, fun k v hv => ?_⟩⟩
  have hbyte : v.toNat < 256 := v.isLt
  obtain ⟨hhigh, hlow⟩ := hexText_getElem? .lowercase s.ibuf k
  rw [hv] at hhigh hlow
  exact ⟨⟨_, hhigh, hexDigit_lowercase_toNat (by omega)⟩, ⟨_, hlow, hexDigit_lowercase_toNat (by omega)⟩⟩

/-! ### HEXDEC -/

theorem endingHexdec_of_odd (both : Bool) {s : List Byte} (h : s.length % 2 = 1) :
    endingHexdec both s = .raise .hexLen 0 :=
  if_pos h

theorem endingHexdec_of_leftmostAt {both : Bool} {s : List Byte} (heven : s.length % 2 = 0) {k : Nat}
    (hk : leftmostAt (fun c => hexval both c = none) s k) : endingHexdec both s = .raise .hexDigit k := by
  obtain ⟨⟨c, hc, hbad⟩, hleft⟩ := hk
  have hfound : s.findIdx? (fun c => (hexval both c).isNone) = some k := by
    obtain ⟨hlength, rfl⟩ := List.getElem?_eq_some_iff.mp hc
    rw [List.findIdx?_eq_some_iff_getElem]
    refine ⟨hlength, by simp [hbad], fun j hj => ?_⟩
    simpa using hleft j s[j] hj (List.getElem?_eq_getElem _)
  rw [endingHexdec, if_neg (by omega), hfound]

theorem endingHexdec_of_digits {both : Bool} {s : List Byte} (heven : s.length % 2 = 0)
    (hdigits : ∀ c ∈ s, hexval both c ≠ none) : endingHexdec both s = .complete (hexBytes both s) false := by
  have hfound : s.findIdx? (fun c => (hexval both c).isNone) = none := by
    rw [List.findIdx?_eq_none_iff]
    intro c hc
    simpa [Option.isSome_iff_ne_none] using hdigits c hc
  rw [endingHexdec, if_neg (by omega), hfound]

theorem hexBytes_cons_cons {both : Bool} {hi lo : Byte} {x y : Nat} (hx : hexval both hi = some x)
    (hy : hexval both lo = some y) (rest : List Byte) :
    hexBytes both (hi :: lo :: rest) = BitVec.ofNat 8 (16 * x + y) :: hexBytes both rest := by
  rw [hexBytes, hx, hy]
  rfl

/-- Byte `j` is made of the characters `2j` and `2j + 1`. -/
theorem hexBytes_getElem? {both : Bool} {hi lo : Byte} {x y : Nat} (hx : hexval both hi = some x)
    (hy : hexval both lo = some y) (j : Nat) (s : List Byte) (hhi : s[2 * j]? = some hi)
    (hlo : s[2 * j + 1]? = some lo) : (hexBytes both s)[j]? = some (BitVec.ofNat 8 (16 * x + y)) := by
  match s, j with
  | [], j => cases hhi
  | [c], 0 => cases hlo
  | [c], j + 1 => cases hhi
  | c :: d :: rest, 0 =>
    cases hhi
    cases hlo
    rw [hexBytes_cons_cons hx hy]
    rfl
  | c :: d :: rest, j + 1 => exact hexBytes_getElem? hx hy j rest hhi hlo

theorem exec_hexdec_ready (s : State) (h : s.phase = .ready) :
    exec .hexdec s = .next ((s.setCmd 0x08).settle (endingHexdec true s.ibuf)) :=
  exec_ready_of_ne_rev (by decide) s h

/-- Settles O33: the length decides first, then the leftmost character that is no digit, and without one each byte is
that of its two digits. -/
theorem hexdecOutcomes : Obligations.HexdecOutcomes := by
  unfold Obligations.HexdecOutcomes
  refine ⟨hexval_eq_some_iff, fun s hready => ?_⟩
  rw [exec_hexdec_ready s hready]
  refine ⟨fun hodd => ?odd, fun heven k hk => ?bad, fun heven hdigits => ?digits⟩
  case odd =>
    rw [endingHexdec_of_odd true hodd]
    rfl
  case bad =>
    rw [endingHexdec_of_leftmostAt heven hk]
    rfl
  case digits =>
    rw [endingHexdec_of_digits heven hdigits]
    refine ⟨_, rfl, hexBytes_length true _, fun j hi lo x y hhi hlo hx hy => ?_⟩
    exact ⟨_, hexBytes_getElem? hx hy j _ hhi hlo, hexByte_toNat (hexval_lt hx) (hexval_lt hy)⟩

/-! ### HEXDEC of a HEXENC result -/

theorem hexText_digits (c : HexCase) (b : List Byte) : ∀ x ∈ hexText c b, hexval true x ≠ none := by
  intro x hx
  obtain ⟨v, _, hv⟩ := List.mem_flatMap.mp hx
  have hbyte : v.toNat < 256 := v.isLt
  obtain rfl | rfl : x = hexDigit c (v.toNat / 16) ∨ x = hexDigit c (v.toNat % 16) := by
    simpa [hexOfByte, hexDigit] using hv
  · rw [hexval_hexDigit c (by omega)]
    exact Option.some_ne_none _
  · rw [hexval_hexDigit c (by omega)]
    exact Option.some_ne_none _

theorem hexBytes_hexText (c : HexCase) (b : List Byte) : hexBytes true (hexText c b) = b := by
  induction b with
  | nil => rfl
  | cons v b ih =>
    have hbyte : v.toNat < 256 := v.isLt
    have hvalue : 16 * (v.toNat / 16) + v.toNat % 16 = v.toNat := Nat.div_add_mod _ _
    rw [hexText_cons_hexDigit, hexBytes_cons_cons (hexval_hexDigit c (by omega)) (hexval_hexDigit c (by omega)), ih,
      hvalue, BitVec.ofNat_toNat, BitVec.setWidth_eq]

theorem endingHexdec_hexText (c : HexCase) (b : List Byte) : endingHexdec true (hexText c b) = .complete b false := by
  rw [endingHexdec_of_digits (by simp) (hexText_digits c b), hexBytes_hexText]

/-- Settles O34: a HEXENC result is a text of an even number of digits, and each byte is that of its two digits. -/
theorem hexRoundTrip : Obligations.HexRoundTrip := by
  unfold Obligations.HexRoundTrip
  refine ⟨endingHexdec_hexText, fun s hready => ?_⟩
  refine ⟨_, _, exec_hexenc_ready s hready, exec_hexdec_ready _ hready, ?_⟩
  have hending := endingHexdec_hexText .lowercase s.ibuf
  simp only [State.complete_obuf, hending, State.settle_complete, State.complete_code, and_self]

/-! ### HEXENC of a HEXDEC result -/

/-- A hexadecimal digit written in the letter case `c`. -/
def inCase (c : HexCase) (x : Byte) : Byte := hexDigit c ((hexval true x).getD 0)

theorem inCase_of_hexval {x : Byte} {d : Nat} (c : HexCase) (h : hexval true x = some d) :
    inCase c x = hexDigit c d := by
  rw [inCase, h]
  rfl

theorem hexval_inCase (c : HexCase) {x : Byte} (h : hexval true x ≠ none) :
    hexval true (inCase c x) = hexval true x := by
  obtain ⟨d, hd⟩ := Option.ne_none_iff_exists'.mp h
  rw [inCase_of_hexval c hd, hexval_hexDigit c (hexval_lt hd), hd]

/-- A digit of the case already is left as it is. -/
theorem inCase_of_mem (c : HexCase) : ∀ x ∈ (hexDigits c).toList, inCase c x = x := by
  cases c
  case lowercase => decide
  case uppercase => decide

/-- The text of the bytes of a text of digits is that text in the encoder's letter case. -/
theorem hexText_hexBytes (c : HexCase) (s : List Byte) (heven : s.length % 2 = 0)
    (hdigits : ∀ x ∈ s, hexval true x ≠ none) : hexText c (hexBytes true s) = s.map (inCase c) := by
  match s with
  | [] => rfl
  | [_] => cases heven
  | hi :: lo :: rest =>
    obtain ⟨x, hx⟩ := Option.ne_none_iff_exists'.mp (hdigits hi (by simp))
    obtain ⟨y, hy⟩ := Option.ne_none_iff_exists'.mp (hdigits lo (by simp))
    have hxlt : x < 16 := hexval_lt hx
    have hylt : y < 16 := hexval_lt hy
    have hrest : hexText c (hexBytes true rest) = rest.map (inCase c) :=
      hexText_hexBytes c rest (by simp only [List.length_cons] at heven; omega) fun z hz => hdigits z (by simp [hz])
    have hhigh : (16 * x + y) / 16 = x := by omega
    have hlow : (16 * x + y) % 16 = y := by omega
    rw [hexBytes_cons_cons hx hy, hexText_cons_hexDigit, hexByte_toNat hxlt hylt, hhigh, hlow, hrest, List.map_cons,
      List.map_cons, inCase_of_hexval c hx, inCase_of_hexval c hy]

/-- Settles O35: character by character the text is that of `inCase`, which keeps the value of a digit. -/
theorem hexencOfHexdec : Obligations.HexencOfHexdec := by
  unfold Obligations.HexencOfHexdec
  intro c s heven hdigits
  rw [hexText_hexBytes c s heven hdigits]
  refine ⟨List.length_map _, fun k x hx => ?character, fun hcase => ?fixed⟩
  case character =>
    have hdigit := hexval_inCase c (hdigits x (List.mem_of_getElem? hx))
    exact ⟨inCase c x, by rw [List.getElem?_map, hx]; rfl, hdigit, hexDigit_mem c _⟩
  case fixed => exact (List.map_congr_left fun x hx => inCase_of_mem c x (hcase x hx)).trans (List.map_id' s)

end Sys2Proof.Machine
end

section
/-! The capacity of the result buffer (20_memory.md R81, 00_scope.md R10): the length of a result in terms of the
operand's length, and that no command exceeds `OCAP`. -/

namespace Sys2Proof.Machine

/-! ### The endings that complete -/

/-- Whatever the tables are, a decoding that goes through is `dec`. -/
theorem eq_dec_of_decodeText {t : Tables} {s d : List Byte} (h : decodeText t s = .ok d) : d = dec t s := by
  unfold decodeText at h
  split at h
  case h_1 => cases h
  case h_2 n hscan =>
    have hover : ∀ c ∈ s.drop (lzc t.alphabet s), lookup t c ≠ none := by
      by_contra hbad
      obtain ⟨k, hk⟩ := exists_leftmostAt (bad := fun c => lookup t c = none) (s := s.drop (lzc t.alphabet s))
        (by simpa using hbad)
      rw [(scanDigits_error t _ _ 0 _).mpr ⟨k, rfl, hk⟩] at hscan
      cases hscan
    rw [scanDigits_ok t _ hover] at hscan
    cases hscan
    cases h
    rfl

theorem endingB58dec_eq_complete {t : Tables} {s out : List Byte} {f : Bool} (h : endingB58dec t s = .complete out f) :
    out = dec t s ∧ f = false := by
  unfold endingB58dec at h
  split at h
  case h_1 => cases h
  case h_2 d hdecode =>
    cases h
    exact ⟨eq_dec_of_decodeText hdecode, rfl⟩

theorem endingB58cdec_eq_complete {d : Digests} {t : Tables} {s out : List Byte} {f : Bool}
    (h : endingB58cdec d t s = .complete out f) : 4 ≤ (dec t s).length ∧ out = payloadPart (dec t s) ∧ f = false := by
  unfold endingB58cdec at h
  split at h
  case h_1 => cases h
  case h_2 b hdecode =>
    obtain rfl := eq_dec_of_decodeText hdecode
    split at h
    case isTrue => cases h
    case isFalse hlength =>
      split at h
      case isTrue =>
        cases h
        exact ⟨Nat.not_lt.mp hlength, rfl, rfl⟩
      case isFalse => cases h

theorem endingHexdec_eq_complete {both : Bool} {s out : List Byte} {f : Bool}
    (h : endingHexdec both s = .complete out f) : s.length % 2 = 0 ∧ out = hexBytes both s ∧ f = false := by
  unfold endingHexdec at h
  split at h
  case isTrue => cases h
  case isFalse heven =>
    split at h
    case h_1 => cases h
    case h_2 =>
      cases h
      exact ⟨by omega, rfl, rfl⟩

theorem endingDhashw_eq_complete {d : Digests} {space : List Byte} {off len : Nat} {out : List Byte} {f : Bool}
    (h : endingDhashw d space off len = .complete out f) : out = dh d (memRead space off len) ∧ f = false := by
  unfold endingDhashw at h
  split at h
  case isTrue =>
    cases h
    exact ⟨rfl, rfl⟩
  case isFalse => cases h

/-- Settles O53: the result of each command that completes, and its length. -/
theorem resultCapacity : Obligations.ResultCapacity := by
  unfold Obligations.ResultCapacity
  intro c i data off len a b out f h
  cases i
  case b58enc =>
    cases h
    exact enc_length_le _ data
  case b58cenc =>
    cases h
    have hlength := enc_length_le c.tables.alphabet (data ++ cs4 c.digests data)
    rw [List.length_append, cs4_length] at hlength
    omega
  case b58dec =>
    obtain ⟨rfl, _⟩ := endingB58dec_eq_complete h
    exact dec_length_le c.tables data
  case b58cdec =>
    obtain ⟨hfour, rfl, _⟩ := endingB58cdec_eq_complete h
    have hlength := dec_length_le c.tables data
    simp only [payloadPart_eq_take, List.length_take]
    omega
  case hexenc =>
    cases h
    exact hexText_length _ data
  case hexdec =>
    obtain ⟨heven, rfl, _⟩ := endingHexdec_eq_complete h
    simp only [hexBytes_length]
    omega
  case rev =>
    cases h
    exact List.length_reverse
  case dhash =>
    cases h
    exact dh_length _ data
  case dhashw =>
    obtain ⟨rfl, _⟩ := endingDhashw_eq_complete h
    exact dh_length _ _
  case idhash =>
    cases h
    exact idh_length _ data
  case ult64 =>
    cases h
    rfl

/-! ### `OCAP` -/

theorem Config.holdsDigest_iff (cap : Option Nat) :
    Config.holdsDigest cap = true ↔ ∀ m, cap = some m → 12 ≤ m := by
  cases cap with
  | none => simp [Config.holdsDigest, Config.ocap, Config.fits]
  | some m =>
    simp only [Config.holdsDigest, Config.ocap, Config.fits, Option.map_some, decide_eq_true_eq, Option.some.injEq,
      forall_eq', Config.digest256Len]
    omega

theorem Config.holdsDigest_maxLen : Config.holdsDigest Config.maxLen = true :=
  Config.fits_ocap (Config.fits_maxLen (Nat.le_refl _)) (by decide)

/-- A result that is no digest has at most `2m + 8` elements. -/
theorem callEnding_length_le {c : CallConfig} {i : Instr} {data : List Byte} {off len : Nat} {a b : Word64}
    {out : List Byte} {f : Bool} (hi : digestLength i = none) (h : callEnding c i data off len a b = .complete out f) :
    out.length ≤ 2 * data.length + 8 := by
  have hcapacity := resultCapacity c i data off len a b out f h
  cases i
  case dhash | dhashw | idhash => cases hi
  case ult64 => simp [hcapacity]
  all_goals
    simp only at hcapacity
    omega

theorem callEnding_digest_length {c : CallConfig} {i : Instr} {data : List Byte} {off len n : Nat} {a b : Word64}
    {out : List Byte} {f : Bool} (hi : digestLength i = some n)
    (h : callEnding c i data off len a b = .complete out f) : out.length = n := by
  have hcapacity := resultCapacity c i data off len a b out f h
  cases i
  case dhash | dhashw | idhash =>
    cases hi
    exact hcapacity
  all_goals cases hi

theorem digestLength_le {i : Instr} {n : Nat} (h : digestLength i = some n) : n ≤ 32 := by
  cases i
  case dhash | dhashw | idhash =>
    cases h
    decide
  all_goals cases h

/-- A result keeps to `OCAP`: one that is no digest for every capacity, a digest for a capacity that holds one. -/
theorem callEnding_fits_ocap {cap : Option Nat} {c : CallConfig} {i : Instr} {data : List Byte} {off len : Nat}
    {a b : Word64} {out : List Byte} {f : Bool} (hdata : Config.fits cap data.length = true)
    (hi : digestLength i = none ∨ Config.holdsDigest cap = true)
    (h : callEnding c i data off len a b = .complete out f) : Config.fits (Config.ocap cap) out.length = true := by
  cases hdigest : digestLength i with
  | none => exact Config.fits_ocap hdata (callEnding_length_le hdigest h)
  | some n =>
    have hholds : Config.holdsDigest cap = true := hi.resolve_left (by simp [hdigest])
    refine Config.fits_mono hholds ?_
    rw [callEnding_digest_length hdigest h]
    exact digestLength_le hdigest

/-- The result of a command word in the machine keeps to `OCAP`. -/
theorem endingOf_fits_ocap {w : Byte} {s : State} {out : List Byte} {f : Bool}
    (hdata : Config.fits Config.maxLen s.ilen = true) (h : endingOf w s = .complete out f) :
    Config.fits (Config.ocap Config.maxLen) out.length = true := by
  cases hd : decode w with
  | error e =>
    rw [endingOf_reserved hd] at h
    cases h
  | ok i =>
    rw [endingOf_command hd] at h
    exact callEnding_fits_ocap hdata (.inr Config.holdsDigest_maxLen) h

theorem hostCommand_fits_ocap {w : Byte} {s t : State} (hready : s.phase = .ready)
    (hdata : Config.fits Config.maxLen s.ilen = true) (h : hostCommand w s = .next t) :
    Config.fits (Config.ocap Config.maxLen) t.olen = true := by
  rw [hostCommand_ready w s hready] at h
  cases h
  cases hending : endingOf w s with
  | complete out f => exact endingOf_fits_ocap hdata hending
  | raise k pos => exact Config.fits_zero _

/-- Settles O54: the bounds of O53 against `2m + 8`, of which 32 is within just when `m` is 12 or more. -/
theorem resultsFitOcap : Obligations.ResultsFitOcap := by
  unfold Obligations.ResultsFitOcap
  refine ⟨Config.holdsDigest_iff, fun cap c i data off len a b out f hdata h => ?bounds, Config.holdsDigest_maxLen,
    fun w s t => hostCommand_fits_ocap, fun m c data off len a b hm => ?below⟩
  case bounds =>
    exact ⟨fun hi => callEnding_fits_ocap hdata hi h, fun n hi => callEnding_digest_length hi h⟩
  case below =>
    refine ⟨_, _, rfl, ?_⟩
    have hexceeds : ¬ 32 ≤ 2 * m + 8 := by omega
    rw [dh_length]
    exact decide_eq_false hexceeds

end Sys2Proof.Machine
end

section
/-! The invariant of the block (10_state.md R23 to R31, 60_exceptions.md R221 to R228): it holds after reset, an access
or a load keeps it, and so does the settling of every ending that a command word can have. -/

namespace Sys2Proof.Machine

/-! ### After reset -/

/-- Settles O10: no operand, no result, no error, and the tables of an alphabet of distinct codes. -/
theorem resetHasInv : Obligations.ResetHasInv := by
  unfold Obligations.ResetHasInv
  intro present p r
  exact {
    tables := tablesOk_tablesValue
    operandFits := Config.fits_zero _
    errposFits := Config.fits_zero _
    errposKind := fun h => absurd rfl h
    outcome := .inl rfl
    failClosed := fun h => absurd rfl h
    flagOnly := nofun
    resultFits := Config.fits_zero _
    fatalQuiet := fun _ => ⟨rfl, rfl, rfl, rfl, rfl⟩ }

/-! ### Operations that touch no result -/

theorem State.Inv.of_sameResults {s t : State} (hinv : s.Inv) (h : SameResults s t)
    (hfits : Config.fits Config.maxLen t.ilen = true) : t.Inv where
  tables := by rw [h.tables]; exact hinv.tables
  operandFits := hfits
  errposFits := by rw [h.errpos]; exact hinv.errposFits
  errposKind := by rw [h.errpos, h.code]; exact hinv.errposKind
  outcome := by rw [h.cmd, h.code]; exact hinv.outcome
  failClosed := by rw [h.code, h.obuf, h.flag]; exact hinv.failClosed
  flagOnly := by rw [h.flag, h.cmd, h.obuf]; exact hinv.flagOnly
  resultFits := by rw [State.olen, h.obuf]; exact hinv.resultFits
  fatalQuiet := by rw [h.phase, h.cmd, h.code, h.errpos, h.obuf, h.flag]; exact hinv.fatalQuiet

/-! ### Commands -/

/-- A bad character is one of the text (60_exceptions.md R221). -/
theorem lt_length_of_decodeText_error {t : Tables} {s : List Byte} {k : Nat} (h : decodeText t s = .error k) :
    k < s.length := by
  unfold decodeText at h
  split at h
  case h_1 j hscan =>
    cases h
    obtain ⟨i, rfl, ⟨c, hc, _⟩, _⟩ := (scanDigits_error t _ _ 0 _).mp hscan
    obtain ⟨hlength, _⟩ := List.getElem?_eq_some_iff.mp hc
    rw [List.length_drop] at hlength
    omega
  case h_2 => cases h

/-- The position of an error is within the operand (10_state.md R31). -/
def Ending.PosWithin (n : Nat) : Ending → Prop
  | .complete _ _ => True
  | .raise _ pos => pos ≤ n

theorem endingB58dec_posWithin (t : Tables) (s : List Byte) : (endingB58dec t s).PosWithin s.length := by
  unfold endingB58dec
  split
  case h_1 k hbad => exact (lt_length_of_decodeText_error hbad).le
  case h_2 => trivial

theorem endingB58cdec_posWithin (d : Digests) (t : Tables) (s : List Byte) :
    (endingB58cdec d t s).PosWithin s.length := by
  unfold endingB58cdec
  split
  case h_1 k hbad => exact (lt_length_of_decodeText_error hbad).le
  case h_2 b hgood =>
    split
    case isTrue => exact Nat.zero_le _
    case isFalse =>
      split
      case isTrue => trivial
      case isFalse => exact Nat.zero_le _

theorem endingHexdec_posWithin (both : Bool) (s : List Byte) : (endingHexdec both s).PosWithin s.length := by
  unfold endingHexdec
  split
  case isTrue => exact Nat.zero_le _
  case isFalse =>
    split
    case h_1 k hbad =>
      obtain ⟨hlength, _⟩ := List.findIdx?_eq_some_iff_getElem.mp hbad
      exact hlength.le
    case h_2 => trivial

theorem endingDhashw_posWithin (d : Digests) (space : List Byte) (off len : Nat) :
    (endingDhashw d space off len).PosWithin space.length := by
  unfold endingDhashw
  split
  case isTrue => trivial
  case isFalse => exact Nat.zero_le _

theorem endingOf_posWithin (w : Byte) (s : State) : (endingOf w s).PosWithin s.ilen := by
  cases hd : decode w with
  | error e =>
    rw [endingOf_reserved hd]
    exact Nat.zero_le _
  | ok i =>
    rw [endingOf_command hd]
    cases i
    case b58dec => exact endingB58dec_posWithin _ _
    case b58cdec => exact endingB58cdec_posWithin _ _ _
    case hexdec => exact endingHexdec_posWithin _ _
    case dhashw => exact endingDhashw_posWithin _ _ _ _
    all_goals trivial

/-- `FLAG` is set by ULT64 only, which has no sequence result (10_state.md R28). -/
theorem endingOf_flag {w : Byte} {s : State} {out : List Byte} (h : endingOf w s = .complete out true) :
    w = encode .ult64 ∧ out = [] := by
  cases hd : decode w with
  | error e =>
    rw [endingOf_reserved hd] at h
    cases h
  | ok i =>
    rw [endingOf_command hd] at h
    cases i
    case ult64 =>
      have hending : Ending.complete [] (lessUnsigned s.opa s.opb) = .complete out true := h
      obtain ⟨hout, _⟩ := Ending.complete.inj hending
      exact ⟨(encode_of_decode hd).symm, hout.symm⟩
    case b58dec =>
      obtain ⟨_, hflag⟩ := endingB58dec_eq_complete h
      cases hflag
    case b58cdec =>
      obtain ⟨_, _, hflag⟩ := endingB58cdec_eq_complete h
      cases hflag
    case hexdec =>
      obtain ⟨_, _, hflag⟩ := endingHexdec_eq_complete h
      cases hflag
    case dhashw =>
      obtain ⟨_, hflag⟩ := endingDhashw_eq_complete h
      cases hflag
    all_goals cases h

/-- What a word that completes leaves has no code and no position, and its result keeps to `OCAP`. -/
theorem State.Inv.of_complete {s : State} (hinv : s.Inv) (hready : s.phase = .ready) {w : Byte} {out : List Byte}
    {f : Bool} (h : endingOf w s = .complete out f) :
    (((s.setCmd w).setIbuf (operandAfter w s)).complete out f).Inv where
  tables := hinv.tables
  operandFits := (congrArg _ (operandAfter_length w s)).trans hinv.operandFits
  errposFits := Config.fits_zero _
  errposKind hpos := absurd rfl hpos
  outcome := .inl rfl
  failClosed hcode := absurd rfl hcode
  flagOnly hflag := endingOf_flag (h.trans (congrArg (Ending.complete out) hflag))
  resultFits := endingOf_fits_ocap hinv.operandFits h
  fatalQuiet hfatal := Phase.noConfusion (hready.symm.trans hfatal)

/-- What a word that fails leaves has a code of the word, a position within the operand, and no result. -/
theorem State.Inv.of_raise {s : State} (hinv : s.Inv) (hready : s.phase = .ready) {w : Byte} {e : ErrorKind} {pos : Nat}
    (h : endingOf w s = .raise e pos) : (((s.setCmd w).setIbuf (operandAfter w s)).raise e pos).Inv := by
  have hposition := endingOf_posWithin w s
  have hwithin := endingOf_failsWithin w s
  rw [h] at hposition hwithin
  obtain ⟨hpossible, hzero⟩ := hwithin
  exact {
    tables := hinv.tables
    operandFits := (congrArg _ (operandAfter_length w s)).trans hinv.operandFits
    errposFits := Config.fits_mono hinv.operandFits hposition
    errposKind := fun hpos => by
      by_contra hother
      obtain ⟨hchar, hdigit⟩ := not_or.mp hother
      exact hpos (hzero (fun he => hchar (congrArg errorCode he)) (fun he => hdigit (congrArg errorCode he)))
    outcome := .inr ⟨e, hpossible, rfl⟩
    failClosed := fun _ => ⟨rfl, rfl⟩
    flagOnly := nofun
    resultFits := Config.fits_zero _
    fatalQuiet := fun hfatal => Phase.noConfusion (hready.symm.trans hfatal) }

theorem hostCommand_keeps_inv {w : Byte} {s t : State} (hinv : s.Inv) (h : hostCommand w s = .next t) : t.Inv := by
  rw [hostCommand_eq_runOperation] at h
  rcases runOperation_cases h with ⟨_, rfl⟩ | ⟨hready, out, f, hending, rfl⟩ | ⟨hready, e, pos, hending, rfl⟩
  · exact hinv
  · exact hinv.of_complete hready hending
  · exact hinv.of_raise hready hending

/-! ### Every step -/

theorem HostEffect.keeps_inv {s t : State} {op : HostOp} (h : HostEffect s op t) (hinv : s.Inv) : t.Inv := by
  cases h with
  | reset => exact resetHasInv true s.pending s.reply
  | command hcommand => exact hostCommand_keeps_inv hinv hcommand
  | load _ hfits => exact hinv.of_sameResults (sameResults_setIbuf s _) hfits
  | access hresults hibuf =>
    have hilen : t.ilen = s.ilen := congrArg List.length hibuf
    exact hinv.of_sameResults hresults (by rw [hilen]; exact hinv.operandFits)

/-- Settles O44: the step takes the oldest operation off, which no clause speaks of, and has its effect. -/
theorem stepKeepsInv : Obligations.StepKeepsInv := by
  unfold Obligations.StepKeepsInv
  intro s t hinv hstep
  cases hpending : s.pending with
  | nil =>
    rw [step_idle s hpending] at hstep
    cases hstep
  | cons op rest =>
    have htaken : (s.setPending rest).Inv :=
      hinv.of_sameResults (sameResults_setPending s rest) hinv.operandFits
    exact (hostEffect_of_step hpending hstep).keeps_inv htaken

end Sys2Proof.Machine
end
